-- ==== Sys2Proof/Word.lean ====
section
/-! DEFINITION. The widths of this hardware (spec/00_scope.md R7, R10): bytes, 16-bit words, and the
4-bit and 12-bit fields of an instruction word, with the two truncations `u8` and `u16` of R10. -/

namespace Sys2Proof

/-- A memory byte, a general register or a timer: 8 bits (R7). -/
abbrev Byte := BitVec 8

/-- An instruction word, `I`, `PC` or a stack slot: 16 bits (R7). -/
abbrev Word := BitVec 16

/-- A register index or a sprite height: 4 bits (R52). -/
abbrev Nibble := BitVec 4

/-- The address field `NNN` of an instruction word: 12 bits (R52). -/
abbrev Addr12 := BitVec 12

/-- `u8(v) = v mod 256` (R10). -/
def u8 (v : Nat) : Byte := BitVec.ofNat 8 v

/-- `u16(v) = v mod 65536` (R10). -/
def u16 (v : Nat) : Word := BitVec.ofNat 16 v

end Sys2Proof
end

