-- ==== Sys2Proof/Config.lean ====
section
/-! DEFINITION. The parameters of spec/00_scope.md R7 that no test of one instruction reads, and the one
FREE VALUE of the model: the random byte of CXNN (spec/10_state.md R32). The font and its base, which a
test can read, stand in Machine/Ops.lean. -/

namespace Sys2Proof.Config

/-- `MEM_SIZE`: addresses 0x000..0xFFF (R7, R36). -/
abbrev memSize : Nat := 4096

/-- `PROG_BASE`: where a program is loaded and where PC starts (R7, R40). -/
abbrev progBase : Nat := 0x200

/-- `MAX_ROM` = 4096 − 0x200 = 3584 bytes (R7, R181). -/
abbrev maxRom : Nat := 3584

/-- FREE VALUE (R32, R108; notes/assumptions/1.md). The bytes that successive executions of CXNN draw:
`randomDraw n` is the byte of draw number `n`. It has no body, so no proof can see any value of it nor a
relation between two of them: a claim proved about it holds for every generator. -/
opaque randomDraw : Nat → Byte

end Sys2Proof.Config
end

