-- ==== Sys2Proof/Syntax.lean ====
section
/-! DEFINITION. The instructions (spec/30_encoding.md R55, R56): one constructor for each of the 34 rows of
spec/opcode_table.json, with the typed operand fields that R53 and R55 give it. The invalid variant of R55
is no instruction: it is `Op.invalid` of Sys2Proof/WellFormed.lean. -/

namespace Sys2Proof

/-- The 34 instructions of R56. Register indices and the sprite height are 4-bit, immediates 8-bit and
addresses 12-bit values (R53), so no operand out of its range can be written down. -/
inductive Instr where
  | cls                                  -- 00E0
  | ret                                  -- 00EE
  | jp (nnn : Addr12)                    -- 1NNN
  | call (nnn : Addr12)                  -- 2NNN
  | seImm (x : Nibble) (nn : Byte)       -- 3XNN
  | sneImm (x : Nibble) (nn : Byte)      -- 4XNN
  | seReg (x y : Nibble)                 -- 5XY0
  | ldImm (x : Nibble) (nn : Byte)       -- 6XNN
  | addImm (x : Nibble) (nn : Byte)      -- 7XNN
  | ldReg (x y : Nibble)                 -- 8XY0
  | or (x y : Nibble)                    -- 8XY1
  | and (x y : Nibble)                   -- 8XY2
  | xor (x y : Nibble)                   -- 8XY3
  | addReg (x y : Nibble)                -- 8XY4
  | sub (x y : Nibble)                   -- 8XY5
  | shr (x y : Nibble)                   -- 8XY6, y carried and never read (R55)
  | subn (x y : Nibble)                  -- 8XY7
  | shl (x y : Nibble)                   -- 8XYE, y carried and never read (R55)
  | sneReg (x y : Nibble)                -- 9XY0
  | ldI (nnn : Addr12)                   -- ANNN
  | jpV0 (nnn : Addr12)                  -- BNNN
  | rnd (x : Nibble) (nn : Byte)         -- CXNN
  | drw (x y n : Nibble)                 -- DXYN
  | skp (x : Nibble)                     -- EX9E
  | sknp (x : Nibble)                    -- EXA1
  | ldVxDt (x : Nibble)                  -- FX07
  | ldVxK (x : Nibble)                   -- FX0A
  | ldDtVx (x : Nibble)                  -- FX15
  | ldStVx (x : Nibble)                  -- FX18
  | addI (x : Nibble)                    -- FX1E
  | ldF (x : Nibble)                     -- FX29
  | ldB (x : Nibble)                     -- FX33
  | storeRegs (x : Nibble)               -- FX55
  | loadRegs (x : Nibble)                -- FX65
  deriving DecidableEq, Repr

end Sys2Proof
end

