-- ==== Sys2Proof/WellFormed.lean ====
section
/-! DEFINITION. Decoded operations and the checks on what enters the machine: which operations a decoder may
answer (spec/30_encoding.md R55, R58), which ROMs load (spec/70_reset_and_hazards.md R181) and which key
codes exist (spec/45_timers_keypad.md R150). An `Instr` needs no check: its operand fields are typed
(R53), so each term of the type is a valid instruction. -/

namespace Sys2Proof

/-- The decoded operation type of R55: an instruction, or the explicit invalid variant with its word. -/
inductive Op where
  | instr (i : Instr)
  | invalid (w : Word)
  deriving DecidableEq, Repr

/-- The list of invalid words of R58, read off the word's digits and not off the decoder. -/
def invalidWord (w : Word) : Bool :=
  let v := w.toNat
  let nnn := v % 4096
  let nn := v % 256
  let n := v % 16
  match v / 4096 with
  | 0x0 => nnn ∉ [0x0E0, 0x0EE]
  | 0x5 => n ≠ 0
  | 0x8 => n ∈ [0x8, 0x9, 0xA, 0xB, 0xC, 0xD, 0xF]
  | 0x9 => n ≠ 0
  | 0xE => nn ∉ [0x9E, 0xA1]
  | 0xF => nn ∉ [0x07, 0x0A, 0x15, 0x18, 0x1E, 0x29, 0x33, 0x55, 0x65]
  | _ => false

/-- Every term of `Instr` is well-formed: its fields cannot hold a value that the encoding has no room for. -/
def Instr.wf (_ : Instr) : Bool := true

/-- An operation is well-formed when it is an instruction or names a word that R58 lists. -/
def Op.wf : Op → Bool
  | .instr i => i.wf
  | .invalid w => invalidWord w

/-- R181: a ROM of more than 3584 bytes is rejected at the boundary. -/
def romOk (b : List Byte) : Bool := b.length ≤ Config.maxRom

/-- R150, R151: a key code outside 0..15 is rejected at the boundary. -/
def keyCodeOk (k : Int) : Bool := 0 ≤ k && k ≤ 15

end Sys2Proof
end

