-- ==== Sys2Proof/Decode.lean ====
section
/-! DEFINITION. The decoder of spec/30_encoding.md R57, a total function of the word alone (R54, R62), the byte
order of an instruction word (spec/20_memory.md R41), and the encoder that inverts the decoder (R65),
written from the patterns of R56. `opcodeTable` is spec/opcode_table.json as mask and pattern rows. -/

namespace Sys2Proof

/-! ## Fields (R52) -/

def fieldOp (w : Word) : Nibble := w.extractLsb' 12 4
def fieldX (w : Word) : Nibble := w.extractLsb' 8 4
def fieldY (w : Word) : Nibble := w.extractLsb' 4 4
def fieldN (w : Word) : Nibble := w.extractLsb' 0 4
def fieldNN (w : Word) : Byte := w.extractLsb' 0 8
def fieldNNN (w : Word) : Addr12 := w.extractLsb' 0 12

/-! ## The decoder (R57) -/

/-- Page 0: only 00E0 and 00EE (R60: there is no SYS). -/
def decodePage0 (w : Word) : Op :=
  if w = 0x00E0#16 then .instr .cls
  else if w = 0x00EE#16 then .instr .ret
  else .invalid w

/-- Page 8: the minor opcode is N. -/
def decodePage8 (w : Word) : Op :=
  match fieldN w with
  | 0x0#4 => .instr (.ldReg (fieldX w) (fieldY w))
  | 0x1#4 => .instr (.or (fieldX w) (fieldY w))
  | 0x2#4 => .instr (.and (fieldX w) (fieldY w))
  | 0x3#4 => .instr (.xor (fieldX w) (fieldY w))
  | 0x4#4 => .instr (.addReg (fieldX w) (fieldY w))
  | 0x5#4 => .instr (.sub (fieldX w) (fieldY w))
  | 0x6#4 => .instr (.shr (fieldX w) (fieldY w))
  | 0x7#4 => .instr (.subn (fieldX w) (fieldY w))
  | 0xE#4 => .instr (.shl (fieldX w) (fieldY w))
  | _ => .invalid w

/-- Page E: the minor opcode is NN. -/
def decodePageE (w : Word) : Op :=
  match fieldNN w with
  | 0x9E#8 => .instr (.skp (fieldX w))
  | 0xA1#8 => .instr (.sknp (fieldX w))
  | _ => .invalid w

/-- Page F: the minor opcode is NN. -/
def decodePageF (w : Word) : Op :=
  match fieldNN w with
  | 0x07#8 => .instr (.ldVxDt (fieldX w))
  | 0x0A#8 => .instr (.ldVxK (fieldX w))
  | 0x15#8 => .instr (.ldDtVx (fieldX w))
  | 0x18#8 => .instr (.ldStVx (fieldX w))
  | 0x1E#8 => .instr (.addI (fieldX w))
  | 0x29#8 => .instr (.ldF (fieldX w))
  | 0x33#8 => .instr (.ldB (fieldX w))
  | 0x55#8 => .instr (.storeRegs (fieldX w))
  | 0x65#8 => .instr (.loadRegs (fieldX w))
  | _ => .invalid w

/-- `decode` of R57: each of the 65,536 words gives exactly one operation. -/
def decode (w : Word) : Op :=
  match fieldOp w with
  | 0x0#4 => decodePage0 w
  | 0x1#4 => .instr (.jp (fieldNNN w))
  | 0x2#4 => .instr (.call (fieldNNN w))
  | 0x3#4 => .instr (.seImm (fieldX w) (fieldNN w))
  | 0x4#4 => .instr (.sneImm (fieldX w) (fieldNN w))
  | 0x5#4 => if fieldN w = 0#4 then .instr (.seReg (fieldX w) (fieldY w)) else .invalid w
  | 0x6#4 => .instr (.ldImm (fieldX w) (fieldNN w))
  | 0x7#4 => .instr (.addImm (fieldX w) (fieldNN w))
  | 0x8#4 => decodePage8 w
  | 0x9#4 => if fieldN w = 0#4 then .instr (.sneReg (fieldX w) (fieldY w)) else .invalid w
  | 0xA#4 => .instr (.ldI (fieldNNN w))
  | 0xB#4 => .instr (.jpV0 (fieldNNN w))
  | 0xC#4 => .instr (.rnd (fieldX w) (fieldNN w))
  | 0xD#4 => .instr (.drw (fieldX w) (fieldY w) (fieldN w))
  | 0xE#4 => decodePageE w
  | _ => decodePageF w

/-! ## Bytes (R41, R51) -/

/-- The big-endian word of two consecutive bytes (R41). -/
def wordOfBytes (hi lo : Byte) : Word := hi ++ lo

/-- The two bytes of a word in memory order, the high byte first (R41). -/
def bytesOfWord (w : Word) : List Byte := [w.extractLsb' 8 8, w.extractLsb' 0 8]

/-- Why a list of bytes does not begin with an instruction. -/
inductive DecodeReject where
  /-- Fewer than the two bytes that every instruction has (R51). -/
  | truncated
  /-- The first two bytes are an invalid word (R58). -/
  | invalidOpcode (w : Word)
  deriving DecidableEq, Repr

/-- Decoding of any list of bytes: the instruction and the bytes after it, or why there is none (R51). -/
def decodeBytes : List Byte → Except DecodeReject (Instr × List Byte)
  | hi :: lo :: rest =>
    match decode (wordOfBytes hi lo) with
    | .instr i => .ok (i, rest)
    | .invalid w => .error (.invalidOpcode w)
  | _ => .error .truncated

/-- The instruction that `decodeBytes` reads from the table word `w` of `nbits` bits. -/
def decodeTableWord (nbits w : Nat) : Option Instr :=
  match decodeBytes (bytesOfWord (u16 (w % 2 ^ nbits))) with
  | .ok (i, _) => some i
  | .error _ => none

/-! ## The encoder (R65), from the patterns of R56 -/

def encode : Instr → Word
  | .cls => 0x00E0#16
  | .ret => 0x00EE#16
  | .jp nnn => 0x1#4 ++ nnn
  | .call nnn => 0x2#4 ++ nnn
  | .seImm x nn => 0x3#4 ++ x ++ nn
  | .sneImm x nn => 0x4#4 ++ x ++ nn
  | .seReg x y => 0x5#4 ++ x ++ y ++ 0x0#4
  | .ldImm x nn => 0x6#4 ++ x ++ nn
  | .addImm x nn => 0x7#4 ++ x ++ nn
  | .ldReg x y => 0x8#4 ++ x ++ y ++ 0x0#4
  | .or x y => 0x8#4 ++ x ++ y ++ 0x1#4
  | .and x y => 0x8#4 ++ x ++ y ++ 0x2#4
  | .xor x y => 0x8#4 ++ x ++ y ++ 0x3#4
  | .addReg x y => 0x8#4 ++ x ++ y ++ 0x4#4
  | .sub x y => 0x8#4 ++ x ++ y ++ 0x5#4
  | .shr x y => 0x8#4 ++ x ++ y ++ 0x6#4
  | .subn x y => 0x8#4 ++ x ++ y ++ 0x7#4
  | .shl x y => 0x8#4 ++ x ++ y ++ 0xE#4
  | .sneReg x y => 0x9#4 ++ x ++ y ++ 0x0#4
  | .ldI nnn => 0xA#4 ++ nnn
  | .jpV0 nnn => 0xB#4 ++ nnn
  | .rnd x nn => 0xC#4 ++ x ++ nn
  | .drw x y n => 0xD#4 ++ x ++ y ++ n
  | .skp x => 0xE#4 ++ x ++ 0x9E#8
  | .sknp x => 0xE#4 ++ x ++ 0xA1#8
  | .ldVxDt x => 0xF#4 ++ x ++ 0x07#8
  | .ldVxK x => 0xF#4 ++ x ++ 0x0A#8
  | .ldDtVx x => 0xF#4 ++ x ++ 0x15#8
  | .ldStVx x => 0xF#4 ++ x ++ 0x18#8
  | .addI x => 0xF#4 ++ x ++ 0x1E#8
  | .ldF x => 0xF#4 ++ x ++ 0x29#8
  | .ldB x => 0xF#4 ++ x ++ 0x33#8
  | .storeRegs x => 0xF#4 ++ x ++ 0x55#8
  | .loadRegs x => 0xF#4 ++ x ++ 0x65#8

/-- The word an operation came from: an invalid variant carries its own (R55). -/
def encodeOp : Op → Word
  | .instr i => encode i
  | .invalid w => w

/-! ## spec/opcode_table.json as data -/

/-- One row of spec/opcode_table.json: a word is the row's instruction when its bits under `mask` are
`pattern`. -/
structure OpcodeRow where
  mnemonic : String
  pattern : Word
  mask : Word
  deriving DecidableEq, Repr

/-- The row of an instruction: its mnemonic (R55: the tag of the Op), pattern and mask as the table has them. -/
def Instr.row : Instr → OpcodeRow
  | .cls => ⟨"Cls", 0x00E0, 0xFFFF⟩
  | .ret => ⟨"Ret", 0x00EE, 0xFFFF⟩
  | .jp _ => ⟨"Jp", 0x1000, 0xF000⟩
  | .call _ => ⟨"Call", 0x2000, 0xF000⟩
  | .seImm _ _ => ⟨"SeImm", 0x3000, 0xF000⟩
  | .sneImm _ _ => ⟨"SneImm", 0x4000, 0xF000⟩
  | .seReg _ _ => ⟨"SeReg", 0x5000, 0xF00F⟩
  | .ldImm _ _ => ⟨"LdImm", 0x6000, 0xF000⟩
  | .addImm _ _ => ⟨"AddImm", 0x7000, 0xF000⟩
  | .ldReg _ _ => ⟨"LdReg", 0x8000, 0xF00F⟩
  | .or _ _ => ⟨"Or", 0x8001, 0xF00F⟩
  | .and _ _ => ⟨"And", 0x8002, 0xF00F⟩
  | .xor _ _ => ⟨"Xor", 0x8003, 0xF00F⟩
  | .addReg _ _ => ⟨"AddReg", 0x8004, 0xF00F⟩
  | .sub _ _ => ⟨"Sub", 0x8005, 0xF00F⟩
  | .shr _ _ => ⟨"Shr", 0x8006, 0xF00F⟩
  | .subn _ _ => ⟨"Subn", 0x8007, 0xF00F⟩
  | .shl _ _ => ⟨"Shl", 0x800E, 0xF00F⟩
  | .sneReg _ _ => ⟨"SneReg", 0x9000, 0xF00F⟩
  | .ldI _ => ⟨"LdI", 0xA000, 0xF000⟩
  | .jpV0 _ => ⟨"JpV0", 0xB000, 0xF000⟩
  | .rnd _ _ => ⟨"Rnd", 0xC000, 0xF000⟩
  | .drw _ _ _ => ⟨"Drw", 0xD000, 0xF000⟩
  | .skp _ => ⟨"Skp", 0xE09E, 0xF0FF⟩
  | .sknp _ => ⟨"Sknp", 0xE0A1, 0xF0FF⟩
  | .ldVxDt _ => ⟨"LdVxDt", 0xF007, 0xF0FF⟩
  | .ldVxK _ => ⟨"LdVxK", 0xF00A, 0xF0FF⟩
  | .ldDtVx _ => ⟨"LdDtVx", 0xF015, 0xF0FF⟩
  | .ldStVx _ => ⟨"LdStVx", 0xF018, 0xF0FF⟩
  | .addI _ => ⟨"AddI", 0xF01E, 0xF0FF⟩
  | .ldF _ => ⟨"LdF", 0xF029, 0xF0FF⟩
  | .ldB _ => ⟨"LdB", 0xF033, 0xF0FF⟩
  | .storeRegs _ => ⟨"StoreRegs", 0xF055, 0xF0FF⟩
  | .loadRegs _ => ⟨"LoadRegs", 0xF065, 0xF0FF⟩

/-- Does the word belong to the row? -/
def OpcodeRow.covers (r : OpcodeRow) (w : Word) : Bool := w &&& r.mask = r.pattern

/-- The 34 rows, in the table's order. -/
def opcodeTable : List OpcodeRow :=
  [Instr.cls, .ret, .jp 0, .call 0, .seImm 0 0, .sneImm 0 0, .seReg 0 0, .ldImm 0 0, .addImm 0 0,
    .ldReg 0 0, .or 0 0, .and 0 0].map Instr.row ++
  [Instr.xor 0 0, .addReg 0 0, .sub 0 0, .shr 0 0, .subn 0 0, .shl 0 0, .sneReg 0 0, .ldI 0,
    .jpV0 0, .rnd 0 0, .drw 0 0 0].map Instr.row ++
  [Instr.skp 0, .sknp 0, .ldVxDt 0, .ldVxK 0, .ldDtVx 0, .ldStVx 0, .addI 0, .ldF 0, .ldB 0,
    .storeRegs 0, .loadRegs 0].map Instr.row

end Sys2Proof
end

