-- ==== Sys2Proof/Machine/State.lean ====
section
/-! DEFINITION. The state of the machine (spec/10_state.md R16): every piece of state the spec names and one
field of the model's own, `draws`. All of it is plain data. -/

namespace Sys2Proof.Machine

/-- The step faults of R28 and R163: what `RUN = Halted(f)` records. The spec describes fault entry (R164), so
the step that raises one ANSWERS A NEXT STATE whose RUN holds it; no step of this model ends in
`Host.Outcome.fault` (notes/assumptions/2.md). Each constructor is safe: the halted state is the spec's. -/
inductive Fault where
  /-- Raised by a fetch of a word that R58 lists as invalid, with that word (R78). Safe. -/
  | invalidOpcode (word : Word)
  /-- Raised by 2NNN with SP = 16 (R87). Safe. -/
  | stackOverflow
  /-- Raised by 00EE with SP = 0 (R85). Safe. -/
  | stackUnderflow
  /-- Raised by a fetch at PC > 0xFFE and by DXYN, FX33, FX55 and FX65, with the first address above 0xFFF
  that the access needed (R44). Safe. -/
  | memoryOutOfBounds (addr : Nat)
  /-- Raised by EX9E and EXA1 with V[X] > 0xF, with V[X] (R143, R144). Safe. -/
  | invalidKeyCode (value : Byte)
  deriving DecidableEq, Repr

/-- Why an instruction has no meaning. Every instruction of the table has one, so no arm of `exec` raises this. -/
inductive Refusal where
  /-- Raised by an arm of `exec` whose instruction is not modelled yet, with its mnemonic. Safe: the run stops. -/
  | notModelled (mnemonic : String)
  deriving DecidableEq, Repr

/-- RUN (R28): the interpreter's run state. -/
inductive RunState where
  | running
  /-- FX0A waits for a key; `x` is the destination register. -/
  | blockedOnKey (x : Nibble)
  /-- A fault was raised; `f` is the one recorded. -/
  | halted (f : Fault)
  deriving DecidableEq, Repr

/-- M (R36) as the list of the bytes that differ from their reset contents, in the canonical form
`Memory.wf` of Machine/Ops.lean. -/
abbrev Memory := List Host.Cell

/-- D (R25): 32 rows of 64 cells; `d[y][x]` is the cell in column x of row y. -/
abbrev Display := Vector (Vector Bool 64) 32

/-- The whole state (R16). `draws` is the model's own field: how many bytes CXNN has drawn, the index of the
next free value `Config.randomDraw draws` (R32; notes/assumptions/1.md). -/
structure State where
  mem : Memory
  v : Vector Byte 16
  i : Word
  pc : Word
  stack : Vector Word 16
  sp : Fin 17
  dt : Byte
  st : Byte
  display : Display
  keys : Vector Bool 16
  run : RunState
  draws : Nat
  deriving DecidableEq, Repr

/-- The state after reset (R31, R180), which is also the state of a new session (R33). `draws = 0` is a DESIGN
CHOICE (notes/assumptions/1.md); every other value is the spec's. -/
def State.reset : State where
  mem := []
  v := Vector.replicate 16 0
  i := 0
  pc := 0x200
  stack := Vector.replicate 16 0
  sp := 0
  dt := 0
  st := 0
  display := Vector.replicate 32 (Vector.replicate 64 false)
  keys := Vector.replicate 16 false
  run := .running
  draws := 0

end Sys2Proof.Machine
end

