-- ==== Sys2Proof/Machine/Ops.lean ====
section
/-! DEFINITION. The operations that the instructions share: memory (spec/20_memory.md), the accessors of each
piece of state, raising a fault and the PC advance (spec/40_interpreter_cycle.md R75 to R80). -/

namespace Sys2Proof.Machine

/-! ## Memory -/

/-- `FONT_BASE` (R7, R27, R39). -/
def fontBase : Nat := 0x050

/-- The 80 font bytes of R27, five for each hexadecimal digit. -/
def font : List Byte :=
  [0xF0, 0x90, 0x90, 0x90, 0xF0] ++ [0x20, 0x60, 0x20, 0x20, 0x70] ++  -- 0 1
  [0xF0, 0x10, 0xF0, 0x80, 0xF0] ++ [0xF0, 0x10, 0xF0, 0x10, 0xF0] ++  -- 2 3
  [0x90, 0x90, 0xF0, 0x10, 0x10] ++ [0xF0, 0x80, 0xF0, 0x10, 0xF0] ++  -- 4 5
  [0xF0, 0x80, 0xF0, 0x90, 0xF0] ++ [0xF0, 0x10, 0x20, 0x40, 0x40] ++  -- 6 7
  [0xF0, 0x90, 0xF0, 0x90, 0xF0] ++ [0xF0, 0x90, 0xF0, 0x10, 0xF0] ++  -- 8 9
  [0xF0, 0x90, 0xF0, 0x90, 0x90] ++ [0xE0, 0x90, 0xE0, 0x90, 0xE0] ++  -- A B
  [0xF0, 0x80, 0x80, 0x80, 0xF0] ++ [0xE0, 0x90, 0x90, 0x90, 0xE0] ++  -- C D
  [0xF0, 0x80, 0xF0, 0x80, 0xF0] ++ [0xF0, 0x80, 0xF0, 0x80, 0x80]     -- E F

/-- What a byte that nothing has written reads as: its reset contents, the font at 0x050..0x09F and 0
elsewhere (R31). -/
def resetByte (a : Nat) : Byte :=
  if a < fontBase then 0 else font.getD (a - fontBase) 0

/-- The byte M[a]. -/
def Memory.read : Memory → Nat → Byte
  | [], a => resetByte a
  | (b, v) :: rest, a => if b = a then v else Memory.read rest a

/-- M[a] ← v, keeping the canonical form: an entry equal to the reset contents is left out. -/
def Memory.write : Memory → Nat → Byte → Memory
  | [], a, v => if v = resetByte a then [] else [(a, v)]
  | (b, w) :: rest, a, v =>
    if a < b then (if v = resetByte a then (b, w) :: rest else (a, v) :: (b, w) :: rest)
    else if a = b then (if v = resetByte a then rest else (a, v) :: rest)
    else (b, w) :: Memory.write rest a v

/-- M[a], M[a+1], ... ← the bytes of the list, in order. -/
def Memory.writeBytes : Memory → Nat → List Byte → Memory
  | m, _, [] => m
  | m, a, b :: bs => Memory.writeBytes (m.write a b) (a + 1) bs

/-- The bytes M[a], ..., M[a+n−1]. -/
def Memory.readBytes (m : Memory) (a n : Nat) : List Byte :=
  (List.range n).map fun j => m.read (a + j)

/-- The big-endian word at a (R41). -/
def Memory.wordAt (m : Memory) (a : Nat) : Word := wordOfBytes (m.read a) (m.read (a + 1))

/-- The canonical form: addresses strictly rising and inside 0x000..0xFFF, and no byte equal to its reset
contents. -/
abbrev Memory.wf (m : Memory) : Prop :=
  m.Pairwise (fun c d => c.1 < d.1) ∧ ∀ c ∈ m, c.1 < Config.memSize ∧ c.2 ≠ resetByte c.1

/-- The bound of R34 and R35, checked for the whole access before any byte moves (n ≥ 1). -/
def checkAccess (a n : Nat) : Except Fault Unit :=
  if a + n - 1 > 0xFFF then .error (.memoryOutOfBounds (max a 0x1000)) else .ok ()

/-- `MemRead(a, n)` as a sequence (R34). -/
def memRead (m : Memory) (a n : Nat) : Except Fault (List Byte) :=
  (checkAccess a n).map fun _ => m.readBytes a n

/-- `MemRead(a, 2)` as the big-endian word (R34, R41). -/
def memReadWord (m : Memory) (a : Nat) : Except Fault Word :=
  (checkAccess a 2).map fun _ => m.wordAt a

/-- `MemWrite(a, n, v)` with n the length of the list (R35). -/
def memWrite (m : Memory) (a : Nat) (bs : List Byte) : Except Fault Memory :=
  (checkAccess a bs.length).map fun _ => m.writeBytes a bs

/-! ## Registers, timers, keys and the display -/

/-- V[x] (R17). -/
def State.getV (s : State) (x : Nibble) : Byte := s.v[x.toNat]'x.isLt

/-- V[x] ← b (R17): no register is hardwired. -/
def State.setV (s : State) (x : Nibble) (b : Byte) : State := { s with v := s.v.set x.toNat b x.isLt }

/-- I ← w (R21). -/
def State.setI (s : State) (w : Word) : State := { s with i := w }

/-- PC ← w (R20). -/
def State.setPc (s : State) (w : Word) : State := { s with pc := w }

/-- M ← m. -/
def State.setMem (s : State) (m : Memory) : State := { s with mem := m }

/-- DT ← b (R24). -/
def State.setDt (s : State) (b : Byte) : State := { s with dt := b }

/-- ST ← b (R24). -/
def State.setSt (s : State) (b : Byte) : State := { s with st := b }

/-- D ← d (R25). -/
def State.setDisplay (s : State) (d : Display) : State := { s with display := d }

/-- K[k] ← p (R26). -/
def State.setKey (s : State) (k : Fin 16) (p : Bool) : State := { s with keys := s.keys.set k p }

/-- RUN ← r (R28). -/
def State.setRun (s : State) (r : RunState) : State := { s with run := r }

/-- The free byte that this execution of CXNN draws (R32). -/
def State.draw (s : State) : Byte := Config.randomDraw s.draws

/-- One draw is used up: the next execution of CXNN draws another free value. -/
def State.nextDraw (s : State) : State := { s with draws := s.draws + 1 }

/-- S[SP] ← w, then SP ← SP + 1; `none` when SP = 16 (R23, R87). -/
def State.push (s : State) (w : Word) : Option State :=
  if h : s.sp.val < 16 then
    some { s with stack := s.stack.set s.sp.val w, sp := ⟨s.sp.val + 1, by omega⟩ }
  else none

/-- SP ← SP − 1, with the value S[SP] of the slot that is now free; `none` when SP = 0 (R23, R85). -/
def State.pop (s : State) : Option (Word × State) :=
  if h : 0 < s.sp.val then
    some (s.stack[s.sp.val - 1]'(by omega), { s with sp := ⟨s.sp.val - 1, by omega⟩ })
  else none

/-! ## Raising a fault and ending an instruction -/

/-- `raise F` (R12, R164): every write of the step is discarded and RUN ← Halted(F) is the only change. The
state given is the one before the step. -/
def raise (f : Fault) (s : State) : Host.Outcome State Fault Refusal := .next (s.setRun (.halted f))

/-- Go on with the value of an access, or raise its fault in the state `s` before the step. -/
def orRaise {α : Type} (s : State) (r : Except Fault α) (k : α → Host.Outcome State Fault Refusal) :
    Host.Outcome State Fault Refusal :=
  match r with
  | .error f => raise f s
  | .ok a => k a

/-- The three outcomes of `perform` (R76). -/
inductive NextPc where
  | default
  | skip
  | target (t : Word)
  deriving DecidableEq, Repr

/-- The PC that R76 gives from the PC of the executing instruction. -/
def NextPc.from (n : NextPc) (pc : Word) : Word :=
  match n with
  | .default => u16 (pc.toNat + 2)
  | .skip => u16 (pc.toNat + 4)
  | .target t => t

/-- `advance(next)` after an instruction that raised nothing (R75, R76). -/
def finish (n : NextPc) (s : State) : Host.Outcome State Fault Refusal := .next (s.setPc (n.from s.pc))

/-! ## Fetch and decode (R75, R78, R80) -/

/-- The word at PC, or MemoryOutOfBounds when PC > 0xFFE. -/
def fetch (s : State) : Except Fault Word := memReadWord s.mem s.pc.toNat

/-- The checks of R80 that precede execution, in their order: the fetch bound, then decode validity. -/
def fetchDecode (s : State) : Except Fault Instr :=
  match fetch s with
  | .error f => .error f
  | .ok w =>
    match decode w with
    | .instr i => .ok i
    | .invalid w => .error (.invalidOpcode w)

end Sys2Proof.Machine
end

