-- ==== Sys2Proof/Machine/Flags.lean ====
section
/-! DEFINITION. The 8-bit results with their flags (spec/42_alu.md R95, R103 to R107), each computed exactly
in Nat and narrowed at the end, and the order of the two writes (R96). -/

namespace Sys2Proof.Machine

/-- A flag as VF holds it: 1 or 0. -/
def flagByte (b : Bool) : Byte := if b then 1 else 0

/-- a + b and the carry out of bit 7 (R103). -/
def addCarry (a b : Byte) : Byte × Bool := (u8 (a.toNat + b.toNat), a.toNat + b.toNat > 0xFF)

/-- a − b, wrapping, and the no-borrow flag a ≥ b (R104). -/
def subNoBorrow (a b : Byte) : Byte × Bool := (u8 (a.toNat + 256 - b.toNat), a.toNat ≥ b.toNat)

/-- a >> 1 and bit 0 of a (R105). -/
def shiftRight (a : Byte) : Byte × Bool := (u8 (a.toNat / 2), a.toNat % 2 = 1)

/-- a << 1 and bit 7 of a (R107). -/
def shiftLeft (a : Byte) : Byte × Bool := (u8 (a.toNat * 2), a.toNat / 128 = 1)

/-- R96: the result goes to V[X] first and the flag to VF after it, so with X = 0xF the flag stays. -/
def State.setVFlag (s : State) (x : Nibble) (r : Byte × Bool) : State :=
  (s.setV x r.1).setV 0xF (flagByte r.2)

end Sys2Proof.Machine
end

