-- ==== Sys2Proof/Machine/Operands.lean ====
section
/-! DEFINITION. The operand forms (spec/30_encoding.md R53, spec/43_index_memory.md R116): immediates
zero-extended, the register list V0..VX, the sprite rows at I, and a register that names a key. -/

namespace Sys2Proof.Machine

/-- `zext_16(NNN)` (R53). -/
def zext16 (nnn : Addr12) : Word := nnn.setWidth 16

/-- The values V[0], ..., V[X], in order (R122). -/
def State.regsUpTo (s : State) (x : Nibble) : List Byte := s.v.toList.take (x.toNat + 1)

/-- V[j] ← b[j] for each j inside the list; the other registers keep their values (R123). -/
def State.setRegs (s : State) (bs : List Byte) : State :=
  { s with v := Vector.ofFn fun j : Fin 16 => bs.getD j.val s.v[j.val] }

/-- The N sprite bytes at I; none is read for N = 0 (R134, R138). -/
def spriteRows (n : Nibble) (s : State) : Except Fault (List Byte) :=
  if n.toNat > 0 then memRead s.mem s.i.toNat n.toNat else .ok []

/-- K[k] for the key that the byte k names, or InvalidKeyCode(k) when k > 0xF (R143, R144). -/
def keyPressed (k : Byte) (s : State) : Except Fault Bool :=
  if h : k.toNat < 16 then .ok s.keys[k.toNat] else .error (.invalidKeyCode k)

/-- The lowest-numbered pressed key (R74). -/
def lowestPressed (s : State) : Option (Fin 16) := (List.finRange 16).find? fun k => s.keys[k.val]

end Sys2Proof.Machine
end

