-- ==== Sys2Proof/Machine/Alu.lean ====
section
/-! DEFINITION. Register loads and arithmetic (spec/42_alu.md): 6XNN, 7XNN, 8XY0 to 8XY7, 8XYE, CXNN. Each
operand is read from the state before the instruction (R96), and each ends with the default advance. -/

namespace Sys2Proof.Machine

/-- V[X] ← b with no flag, then PC + 2. -/
def writeV (x : Nibble) (b : Byte) (s : State) : Host.Outcome State Fault Refusal :=
  finish .default (s.setV x b)

/-- V[X] ← result, VF ← flag (R96), then PC + 2. -/
def writeVFlag (x : Nibble) (r : Byte × Bool) (s : State) : Host.Outcome State Fault Refusal :=
  finish .default (s.setVFlag x r)

/-- 6XNN (R97). -/
def execLdImm (x : Nibble) (nn : Byte) (s : State) : Host.Outcome State Fault Refusal := writeV x nn s

/-- 7XNN (R98): no flag. -/
def execAddImm (x : Nibble) (nn : Byte) (s : State) : Host.Outcome State Fault Refusal :=
  writeV x (u8 ((s.getV x).toNat + nn.toNat)) s

/-- 8XY0 (R99). -/
def execLdReg (x y : Nibble) (s : State) : Host.Outcome State Fault Refusal := writeV x (s.getV y) s

/-- 8XY1 (R100): VF is left alone (R8, `LOGIC_RESETS_VF = false`). -/
def execOr (x y : Nibble) (s : State) : Host.Outcome State Fault Refusal := writeV x (s.getV x ||| s.getV y) s

/-- 8XY2 (R101): VF is left alone. -/
def execAnd (x y : Nibble) (s : State) : Host.Outcome State Fault Refusal := writeV x (s.getV x &&& s.getV y) s

/-- 8XY3 (R102): VF is left alone. -/
def execXor (x y : Nibble) (s : State) : Host.Outcome State Fault Refusal := writeV x (s.getV x ^^^ s.getV y) s

/-- 8XY4 (R103). -/
def execAddReg (x y : Nibble) (s : State) : Host.Outcome State Fault Refusal :=
  writeVFlag x (addCarry (s.getV x) (s.getV y)) s

/-- 8XY5 (R104): V[X] − V[Y]. -/
def execSub (x y : Nibble) (s : State) : Host.Outcome State Fault Refusal :=
  writeVFlag x (subNoBorrow (s.getV x) (s.getV y)) s

/-- 8XY6 (R105): V[Y] is not read (R8, `SHIFT_READS_VY = false`). -/
def execShr (x _y : Nibble) (s : State) : Host.Outcome State Fault Refusal :=
  writeVFlag x (shiftRight (s.getV x)) s

/-- 8XY7 (R106): V[Y] − V[X]. -/
def execSubn (x y : Nibble) (s : State) : Host.Outcome State Fault Refusal :=
  writeVFlag x (subNoBorrow (s.getV y) (s.getV x)) s

/-- 8XYE (R107): V[Y] is not read. -/
def execShl (x _y : Nibble) (s : State) : Host.Outcome State Fault Refusal :=
  writeVFlag x (shiftLeft (s.getV x)) s

/-- CXNN with the drawn byte r as an argument (R108). -/
def rndWith (r : Byte) (x : Nibble) (nn : Byte) (s : State) : Host.Outcome State Fault Refusal :=
  writeV x (r &&& nn) s.nextDraw

/-- CXNN (R108): the drawn byte is the free value of this execution (R32). -/
def execRnd (x : Nibble) (nn : Byte) (s : State) : Host.Outcome State Fault Refusal := rndWith s.draw x nn s

end Sys2Proof.Machine
end

