-- ==== Sys2Proof/Machine/Control.lean ====
section
/-! DEFINITION. Control transfer and skips (spec/41_control_flow.md): 00EE, 1NNN, 2NNN, 3XNN, 4XNN, 5XY0,
9XY0, BNNN. -/

namespace Sys2Proof.Machine

/-- A skip writes nothing but the PC (R84). -/
def skipIf (c : Bool) (s : State) : Host.Outcome State Fault Refusal :=
  finish (if c then .skip else .default) s

/-- 00EE (R85). -/
def execRet (s : State) : Host.Outcome State Fault Refusal :=
  match s.pop with
  | none => raise .stackUnderflow s
  | some (w, s') => finish (.target w) s'

/-- 1NNN (R86). -/
def execJp (nnn : Addr12) (s : State) : Host.Outcome State Fault Refusal :=
  finish (.target (zext16 nnn)) s

/-- 2NNN (R87): the address of the next instruction is pushed. -/
def execCall (nnn : Addr12) (s : State) : Host.Outcome State Fault Refusal :=
  match s.push (u16 (s.pc.toNat + 2)) with
  | none => raise .stackOverflow s
  | some s' => finish (.target (zext16 nnn)) s'

/-- 3XNN (R88). -/
def execSeImm (x : Nibble) (nn : Byte) (s : State) : Host.Outcome State Fault Refusal :=
  skipIf (s.getV x == nn) s

/-- 4XNN (R89). -/
def execSneImm (x : Nibble) (nn : Byte) (s : State) : Host.Outcome State Fault Refusal :=
  skipIf (s.getV x != nn) s

/-- 5XY0 (R90). -/
def execSeReg (x y : Nibble) (s : State) : Host.Outcome State Fault Refusal :=
  skipIf (s.getV x == s.getV y) s

/-- 9XY0 (R91). -/
def execSneReg (x y : Nibble) (s : State) : Host.Outcome State Fault Refusal :=
  skipIf (s.getV x != s.getV y) s

/-- BNNN (R92): the offset register is V0 and the sum is not masked. -/
def execJpV0 (nnn : Addr12) (s : State) : Host.Outcome State Fault Refusal :=
  finish (.target (u16 (nnn.toNat + (s.getV 0).toNat))) s

end Sys2Proof.Machine
end

