-- ==== Sys2Proof/Machine/Draw.lean ====
section
/-! DEFINITION. The display and the sprite-draw engine (spec/44_display.md): 00E0 and DXYN. The drawing loop is
the one that R134 writes out, pixel by pixel, with the collision so far carried along. -/

namespace Sys2Proof.Machine

/-- The cell in column x of row y (R25). -/
def Display.cell (d : Display) (x : Fin 64) (y : Fin 32) : Bool := d[y.val][x.val]

/-- D[y][x] ← D[y][x] ^ 1. -/
def Display.flip (d : Display) (x : Fin 64) (y : Fin 32) : Display :=
  d.set y.val (d[y.val].set x.val (!d[y.val][x.val]))

/-- All 2048 cells off. -/
def Display.clear : Display := Vector.replicate 32 (Vector.replicate 64 false)

/-- A sprite bit 1 at column x, row y: clipped past the edge (R136), else the cell flips and the collision is
set if it was on. -/
def drawPixel (x y : Nat) (acc : Display × Bool) : Display × Bool :=
  if hx : x < 64 then
    if hy : y < 32 then (acc.1.flip ⟨x, hx⟩ ⟨y, hy⟩, acc.2 || acc.1.cell ⟨x, hx⟩ ⟨y, hy⟩) else acc
  else acc

/-- One sprite byte at row y: bit 7 at column x0, bit 0 at column x0 + 7 (R135). -/
def drawRow (x0 y : Nat) (row : Byte) (acc : Display × Bool) : Display × Bool :=
  (List.range 8).foldl (fun acc c => if row.getLsbD (7 - c) then drawPixel (x0 + c) y acc else acc) acc

/-- The sprite's rows from row y down (R134, R135). -/
def drawRows (x0 : Nat) : Nat → List Byte → Display × Bool → Display × Bool
  | _, [], acc => acc
  | y, row :: rows, acc => drawRows x0 (y + 1) rows (drawRow x0 y row acc)

/-- 00E0 (R133). -/
def execCls (s : State) : Host.Outcome State Fault Refusal := finish .default (s.setDisplay Display.clear)

/-- DXYN (R134): the coordinates and the sprite rows are read first, VF is written last (R139). -/
def execDrw (x y n : Nibble) (s : State) : Host.Outcome State Fault Refusal :=
  let x0 := (s.getV x).toNat % 64
  let y0 := (s.getV y).toNat % 32
  orRaise s (spriteRows n s) fun rows =>
    let r := drawRows x0 y0 rows (s.display, false)
    finish .default ((s.setDisplay r.1).setV 0xF (flagByte r.2))

end Sys2Proof.Machine
end

