-- ==== Sys2Proof/Machine/IndexMemory.lean ====
section
/-! DEFINITION. The address register and the memory transfers (spec/43_index_memory.md): ANNN, FX1E, FX29,
FX33, FX55, FX65. None writes VF as a flag and none changes I as a side effect (R116, R117). -/

namespace Sys2Proof.Machine

/-- `MemWrite(I, n, bs)`, then PC + 2, or the fault of the access. -/
def storeAtI (bs : List Byte) (s : State) : Host.Outcome State Fault Refusal :=
  orRaise s (memWrite s.mem s.i.toNat bs) fun m => finish .default (s.setMem m)

/-- The three decimal digits of a byte, hundreds first (R121). -/
def bcd (b : Byte) : List Byte := [u8 (b.toNat / 100), u8 (b.toNat / 10 % 10), u8 (b.toNat % 10)]

/-- ANNN (R118). -/
def execLdI (nnn : Addr12) (s : State) : Host.Outcome State Fault Refusal :=
  finish .default (s.setI (zext16 nnn))

/-- FX1E (R119): the sum wraps at 16 bits, and neither a fault nor a flag follows. -/
def execAddI (x : Nibble) (s : State) : Host.Outcome State Fault Refusal :=
  finish .default (s.setI (u16 (s.i.toNat + (s.getV x).toNat)))

/-- FX29 (R120): the whole byte V[X] counts, not its low nibble. -/
def execLdF (x : Nibble) (s : State) : Host.Outcome State Fault Refusal :=
  finish .default (s.setI (u16 (fontBase + 5 * (s.getV x).toNat)))

/-- FX33 (R121). -/
def execLdB (x : Nibble) (s : State) : Host.Outcome State Fault Refusal := storeAtI (bcd (s.getV x)) s

/-- FX55 (R122): I is unchanged (R8, `LOADSTORE_INCREMENTS_I = false`). -/
def execStoreRegs (x : Nibble) (s : State) : Host.Outcome State Fault Refusal := storeAtI (s.regsUpTo x) s

/-- FX65 (R123): I is unchanged. -/
def execLoadRegs (x : Nibble) (s : State) : Host.Outcome State Fault Refusal :=
  orRaise s (memRead s.mem s.i.toNat (x.toNat + 1)) fun bs => finish .default (s.setRegs bs)

end Sys2Proof.Machine
end

