-- ==== Sys2Proof/Machine/TimersKeypad.lean ====
section
/-! DEFINITION. Timers and keypad (spec/45_timers_keypad.md): EX9E, EXA1, FX07, FX0A, FX15, FX18, and the
resolution of a key wait (spec/40_interpreter_cycle.md R73, R74). -/

namespace Sys2Proof.Machine

/-- EX9E (R143). -/
def execSkp (x : Nibble) (s : State) : Host.Outcome State Fault Refusal :=
  orRaise s (keyPressed (s.getV x) s) fun p => skipIf p s

/-- EXA1 (R144). -/
def execSknp (x : Nibble) (s : State) : Host.Outcome State Fault Refusal :=
  orRaise s (keyPressed (s.getV x) s) fun p => skipIf (!p) s

/-- FX07 (R145). -/
def execLdVxDt (x : Nibble) (s : State) : Host.Outcome State Fault Refusal :=
  finish .default (s.setV x s.dt)

/-- FX0A (R148): PC moves on now and V[X] is written by the step that resolves the wait. -/
def execLdVxK (x : Nibble) (s : State) : Host.Outcome State Fault Refusal :=
  finish .default (s.setRun (.blockedOnKey x))

/-- FX15 (R146). -/
def execLdDtVx (x : Nibble) (s : State) : Host.Outcome State Fault Refusal :=
  finish .default (s.setDt (s.getV x))

/-- FX18 (R147). -/
def execLdStVx (x : Nibble) (s : State) : Host.Outcome State Fault Refusal :=
  finish .default (s.setSt (s.getV x))

/-- `resolve_key(x)` with the key k0 (R74). -/
def resolveKey (x : Nibble) (k0 : Fin 16) (s : State) : State :=
  (s.setV x (u8 k0.val)).setRun .running

/-- A step in BlockedOnKey(x): resolution when some key is pressed (R74), nothing otherwise (R73). -/
def stepBlocked (x : Nibble) (s : State) : Host.Outcome State Fault Refusal :=
  match lowestPressed s with
  | some k0 => .next (resolveKey x k0 s)
  | none => .next s

end Sys2Proof.Machine
end

