-- ==== Sys2Proof/Machine/Step.lean ====
section
/-! DEFINITION. One `step()` of the interpreter (spec/40_interpreter_cycle.md R71, R75) and the placement of an
instruction where it fetches. -/

namespace Sys2Proof.Machine

/-- `step()` of R71. Its result Success or Failure(f) is read off the next state's RUN by `stepResult` of
Machine/HostOps.lean (R72). -/
def step (s : State) : Host.Outcome State Fault Refusal :=
  match s.run with
  | .halted _ => .next s
  | .blockedOnKey x => stepBlocked x s
  | .running => orRaise s (fetchDecode s) fun i => exec i s

/-- `s` with an instruction word stored where its next step fetches: at PC, RUN being Running. A PC above
0xFFE, from which nothing can be fetched, is moved to 0x200 first (notes/assumptions/3.md). -/
def State.withFetchWord (s : State) (nbits w : Nat) : State :=
  let pc : Word := if s.pc.toNat ≤ 0xFFE then s.pc else u16 Config.progBase
  { s with
    mem := s.mem.writeBytes pc.toNat (bytesOfWord (u16 (w % 2 ^ nbits)))
    pc := pc
    run := .running }

end Sys2Proof.Machine
end

