-- ==== Sys2Proof/Machine/HostOps.lean ====
section
/-! DEFINITION. The host operations of spec/40_interpreter_cycle.md R70, each one atomic transition with its
result: reset, load_rom, step, tick, key_down, key_up, the read ports and the disassembler. A session is any
list of them (spec/70_reset_and_hazards.md R185). -/

namespace Sys2Proof.Machine

/-! ## Results -/

/-- The step result of R72. -/
inductive StepResult where
  | success
  | failure (f : Fault)
  deriving DecidableEq, Repr

/-- One record of the disassembler (R155): the decoded operation's tag is the mnemonic. -/
structure Record where
  address : Word
  word : Word
  op : Op
  deriving DecidableEq, Repr

/-- The register snapshot of R159. -/
structure Snapshot where
  v : Vector Byte 16
  i : Word
  sp : Fin 17
  stack : Vector Word 16
  dt : Byte
  st : Byte
  run : RunState
  deriving DecidableEq, Repr

/-- What a host operation gives back (R70). -/
inductive HostResult where
  | none
  | ok
  | romTooLarge
  | invalidKeyCode (k : Int)
  | stepped (r : StepResult)
  | displayBytes (bs : List Byte)
  | memoryBytes (bs : List Byte)
  | pcValue (w : Word)
  | registers (r : Snapshot)
  | records (rs : List Record)
  deriving DecidableEq, Repr

/-! ## Reset and load (R180, R181) -/

/-- `reset()` (R180). The model's own counter of draws goes on, so that a byte drawn after a reset has no
relation to one drawn before it (notes/assumptions/1.md). -/
def State.doReset (s : State) : State := { State.reset with draws := s.draws }

/-- `create`: a new session is in the state after reset (R33, R180). -/
def State.create : State := State.reset

/-- `load_rom(b)` (R181): rejected whole, or reset and then the copy to 0x200. -/
def State.loadRom (b : List Byte) (s : State) : State × HostResult :=
  if romOk b then
    (s.doReset.setMem (s.doReset.mem.writeBytes Config.progBase b), .ok)
  else (s, .romTooLarge)

/-! ## Step, tick and keys -/

/-- R72: a step returns Failure(f) exactly when it leaves RUN = Halted(f), which is also the state it started
in or the fault it raised. -/
def stepResult (after : State) : StepResult :=
  match after.run with
  | .halted f => .failure f
  | _ => .success

/-- The host's `step()` with its result (R72). `step` answers a next state in every state. -/
def State.doStep (s : State) : State × HostResult :=
  match step s with
  | .next t => (t, .stepped (stepResult t))
  | .fault f => (s.setRun (.halted f), .stepped (.failure f))
  | .refused _ => (s, .none)

/-- One timer's decay: by one, clamped at 0 (R149). -/
def decay (b : Byte) : Byte := u8 (b.toNat - 1)

/-- `tick()` (R149), in every run state. -/
def State.tick (s : State) : State := (s.setDt (decay s.dt)).setSt (decay s.st)

/-- `key_down` and `key_up` (R150, R151): an invalid code is rejected with no change, in every run state. -/
def State.keyEvent (k : Int) (pressed : Bool) (s : State) : State × HostResult :=
  if keyCodeOk k then (s.setKey (Fin.ofNat 16 k.toNat) pressed, .ok) else (s, .invalidKeyCode k)

/-! ## Read ports (R141, R159) -/

/-- The 2048 bytes of the display, one for each cell, row-major (R141). -/
def State.readDisplay (s : State) : List Byte :=
  s.display.toList.flatMap fun row => row.toList.map fun on => if on then 1 else 0

/-- The 4096 bytes of memory in address order (R159). -/
def State.readMemory (s : State) : List Byte := s.mem.readBytes 0 Config.memSize

/-- The register snapshot (R159). -/
def State.readRegisters (s : State) : Snapshot where
  v := s.v
  i := s.i
  sp := s.sp
  stack := s.stack
  dt := s.dt
  st := s.st
  run := s.run

/-! ## The disassembler (R153) -/

/-- The loop of R153 from the address a, for at most `fuel` slots. -/
def walk (m : Memory) (stop : Int) : Nat → Nat → List Record
  | 0, _ => []
  | fuel + 1, a =>
    if (a : Int) + 1 < stop ∧ a + 1 ≤ 0xFFF then
      ⟨u16 a, m.wordAt a, decode (m.wordAt a)⟩ :: walk m stop fuel (a + 2)
    else []

/-- `disassemble(start, end)` (R153, R157). Half of the 4096 bytes is fuel enough for every start. -/
def disassemble (m : Memory) (start stop : Int) : List Record :=
  if start < 0 then [] else walk m stop 2048 start.toNat

/-- The "whole loaded program" form with the ROM length that the host supplies (R154). -/
def disassembleProgram (m : Memory) (len : Nat) : List Record :=
  disassemble m 0x200 (0x200 + len)

/-! ## The operations as one alphabet -/

/-- The host operations of R70 on a session that exists. -/
inductive HostOp where
  | reset
  | loadRom (b : List Byte)
  | step
  | tick
  | keyDown (k : Int)
  | keyUp (k : Int)
  | readDisplay
  | readMemory
  | readPc
  | readRegisters
  | disassemble (start stop : Int)
  deriving DecidableEq, Repr

/-- One host operation: the state after it and its result (R70). -/
def hostOp (op : HostOp) (s : State) : State × HostResult :=
  match op with
  | .reset => (s.doReset, .none)
  | .loadRom b => s.loadRom b
  | .step => s.doStep
  | .tick => (s.tick, .none)
  | .keyDown k => s.keyEvent k true
  | .keyUp k => s.keyEvent k false
  | .readDisplay => (s, .displayBytes s.readDisplay)
  | .readMemory => (s, .memoryBytes s.readMemory)
  | .readPc => (s, .pcValue s.pc)
  | .readRegisters => (s, .registers s.readRegisters)
  | .disassemble a b => (s, .records (Sys2Proof.Machine.disassemble s.mem a b))

/-- The state after a session's operations, in the order the host invokes them (R48, R81, R185). -/
def session (ops : List HostOp) (s : State) : State := ops.foldl (fun s op => (hostOp op s).1) s

/-! ## The host over a whole run (R184, R191) -/

/-- Every operation that a host invokes, for ever: `ops n` is the n-th. Ticks and steps may interleave in any
way, with any number of steps between two ticks (R191). -/
abbrev Schedule := Nat → HostOp

/-- The state after the first `n` operations of a schedule. -/
def scheduled (ops : Schedule) (n : Nat) (s : State) : State := session ((List.range n).map ops) s

/-- The host invokes `op` again and again, after every point of the schedule. -/
def KeepsComing (op : HostOp) (ops : Schedule) : Prop := ∀ n, ∃ m, n ≤ m ∧ ops m = op

/-- FAIRNESS ASSUMPTION on the host (R191, D2): ticks keep coming. It is a duty of the host (R184) and no
property of the machine: a claim that a program waiting for DT goes on takes it as a hypothesis. It says nothing
of how many steps lie between two ticks. -/
def TicksKeepComing (ops : Schedule) : Prop := KeepsComing .tick ops

end Sys2Proof.Machine
end

