-- ==== Sys2Proof/Safety.lean ====
section
/-! DEFINITION. What counts as a safe run, in the terms claims use: the kinds of state of
spec/40_interpreter_cycle.md R82, the invariant of R77, and the fault that a step raises by R80 and the
table of spec/60_exceptions.md R163, written from those rules and not from `exec`. -/

namespace Sys2Proof.Safety

open Sys2Proof.Machine

/-- Faulted (R82): RUN = Halted(f) for some f. -/
def Faulted (s : State) : Prop := ∃ f, s.run = .halted f

/-- Idle (R82): Running at a 1NNN whose NNN is its own address. -/
def Idle (s : State) : Prop :=
  s.run = .running ∧ s.pc.toNat ≤ 0xFFE ∧
    ∃ nnn : Addr12, s.mem.wordAt s.pc.toNat = 0x1#4 ++ nnn ∧ nnn.toNat = s.pc.toNat

/-- Waiting (R82): BlockedOnKey with no key pressed. -/
def Waiting (s : State) : Prop :=
  (∃ x, s.run = .blockedOnKey x) ∧ ∀ k : Fin 16, s.keys[k.val] = false

/-- The invariant of reachable states: PC at most 0x10FE and return addresses at most 0x1000 (R77), and the
memory in its canonical form. -/
abbrev Inv (s : State) : Prop :=
  s.pc.toNat ≤ 0x10FE ∧ (∀ k : Fin 16, s.stack[k.val].toNat ≤ 0x1000) ∧ s.mem.wf

/-- The first address above 0xFFF that an access of `n` bytes from `a` needs, if it needs one (R163). -/
def boundsFault (a n : Nat) : Option Fault :=
  if 0x1000 < a + n ∧ 0 < n then some (.memoryOutOfBounds (max a 0x1000)) else none

/-- The instruction's own check (R80, R163), with the bytes it accesses by R116. -/
def instrFault (i : Instr) (s : State) : Option Fault :=
  match i with
  | .call _ => if s.sp = 16 then some .stackOverflow else none
  | .ret => if s.sp = 0 then some .stackUnderflow else none
  | .skp x | .sknp x =>
    if 0xF < (s.getV x).toNat then some (.invalidKeyCode (s.getV x)) else none
  | .drw _ _ n => boundsFault s.i.toNat n.toNat
  | .ldB _ => boundsFault s.i.toNat 3
  | .storeRegs x | .loadRegs x => boundsFault s.i.toNat (x.toNat + 1)
  | _ => none

/-- The fault that a step in Running raises, by the order of R80: fetch bound, decode validity, own check. -/
def faultCause (s : State) : Option Fault :=
  match boundsFault s.pc.toNat 2 with
  | some f => some f
  | none =>
    match decode (s.mem.wordAt s.pc.toNat) with
    | .invalid w => some (.invalidOpcode w)
    | .instr i => instrFault i s

/-- A safe session: no operation of it leaves the interpreter halted. -/
def SafeSession : List HostOp → State → Prop
  | [], s => ¬ Faulted s
  | op :: ops, s => ¬ Faulted s ∧ SafeSession ops (hostOp op s).1

end Sys2Proof.Safety
end

