-- ==== Sys2Proof/Certificates/Slice0/Obligations.lean ====
section
/-! DEFINITION. The statements about the model that are to be proved, each from a numbered rule of spec/. The
predicates they share stand in Sys2Proof.Claims; none of them is the model's. Where a statement names the
counter `draws`, that field is the model's own (notes/assumptions/1.md), and the statement holds for every
value of it. -/

namespace Sys2Proof.Claims

open Sys2Proof.Machine Sys2Proof.Safety

/-! ## What stays the same between two states, read through the accessors -/

/-- Every general register outside `P` is unchanged. -/
def SameVBut (P : Nibble → Prop) (s t : State) : Prop := ∀ r, ¬ P r → t.getV r = s.getV r

/-- Every byte of memory reads as before. -/
def SameMem (s t : State) : Prop := ∀ a, t.mem.read a = s.mem.read a

/-- The stack pointer and every stack slot are unchanged. -/
def SameStack (s t : State) : Prop := t.sp = s.sp ∧ ∀ k : Fin 16, t.stack[k.val] = s.stack[k.val]

/-- Every display cell is unchanged. -/
def SameDisplay (s t : State) : Prop :=
  ∀ (x : Fin 64) (y : Fin 32), t.display.cell x y = s.display.cell x y

/-- Every key is unchanged. -/
def SameKeys (s t : State) : Prop := ∀ k : Fin 16, t.keys[k.val] = s.keys[k.val]

/-- The stack, both timers, the keys and RUN are unchanged. -/
def SameControl (s t : State) : Prop :=
  SameStack s t ∧ t.dt = s.dt ∧ t.st = s.st ∧ SameKeys s t ∧ t.run = s.run

/-- Everything but V, PC and the counter of draws is unchanged. -/
def SameOutsideV (s t : State) : Prop :=
  t.i = s.i ∧ SameControl s t ∧ SameDisplay s t ∧ SameMem s t

/-! ## The shapes of the results -/

/-- The instruction raises the fault: RUN ← Halted(f) is its only effect (R12). -/
def Raises (i : Instr) (s : State) (f : Fault) : Prop := exec i s = .next { s with run := .halted f }

/-- The instruction writes `b` to V[x] alone, and PC + 2. -/
def WritesV (i : Instr) (s : State) (x : Nibble) (b : Byte) : Prop :=
  ∃ t, exec i s = .next t ∧ t.getV x = b ∧ SameVBut (· = x) s t ∧ SameOutsideV s t ∧
    t.draws = s.draws ∧ t.pc.toNat = (s.pc.toNat + 2) % 65536

/-- The instruction writes `b` to V[x] and then `flag` to VF (so VF ends as the flag when x = 0xF), and PC +
2. -/
def WritesVFlag (i : Instr) (s : State) (x : Nibble) (b flag : Byte) : Prop :=
  ∃ t, exec i s = .next t ∧ (x ≠ 0xF → t.getV x = b) ∧ t.getV 0xF = flag ∧
    SameVBut (fun r => r = x ∨ r = 0xF) s t ∧ SameOutsideV s t ∧
    t.draws = s.draws ∧ t.pc.toNat = (s.pc.toNat + 2) % 65536

/-- The instruction only moves PC: by 4 when `c` holds, else by 2. -/
def SkipsWhen (i : Instr) (s : State) (c : Prop) : Prop :=
  (c → exec i s = .next { s with pc := s.pc + 4 }) ∧ (¬ c → exec i s = .next { s with pc := s.pc + 2 })

/-! ## Rules that name sets of instructions -/

/-- The general registers that an instruction may write (R18, R19). -/
def MayWriteV (i : Instr) (r : Nibble) : Prop :=
  match i with
  | .ldImm x _ | .addImm x _ | .ldReg x _ | .or x _ | .and x _ | .xor x _ | .rnd x _ | .ldVxDt x => r = x
  | .addReg x _ | .sub x _ | .shr x _ | .subn x _ | .shl x _ => r = x ∨ r = 0xF
  | .drw _ _ _ => r = 0xF
  | .loadRegs x => r.toNat ≤ x.toNat
  | _ => False

/-- How many bytes from the address in I an instruction stores (R37): none, but for FX33 and FX55. -/
def storedAtI (i : Instr) : Nat :=
  match i with
  | .ldB _ => 3
  | .storeRegs x => x.toNat + 1
  | _ => 0

/-- The five glyph bytes of a hexadecimal digit, from the table of R27. -/
def glyph (d : Fin 16) : List Byte :=
  match d.val with
  | 0x0 => [0xF0, 0x90, 0x90, 0x90, 0xF0]
  | 0x1 => [0x20, 0x60, 0x20, 0x20, 0x70]
  | 0x2 => [0xF0, 0x10, 0xF0, 0x80, 0xF0]
  | 0x3 => [0xF0, 0x10, 0xF0, 0x10, 0xF0]
  | 0x4 => [0x90, 0x90, 0xF0, 0x10, 0x10]
  | 0x5 => [0xF0, 0x80, 0xF0, 0x10, 0xF0]
  | 0x6 => [0xF0, 0x80, 0xF0, 0x90, 0xF0]
  | 0x7 => [0xF0, 0x10, 0x20, 0x40, 0x40]
  | 0x8 => [0xF0, 0x90, 0xF0, 0x90, 0xF0]
  | 0x9 => [0xF0, 0x90, 0xF0, 0x10, 0xF0]
  | 0xA => [0xF0, 0x90, 0xF0, 0x90, 0x90]
  | 0xB => [0xE0, 0x90, 0xE0, 0x90, 0xE0]
  | 0xC => [0xF0, 0x80, 0x80, 0x80, 0xF0]
  | 0xD => [0xE0, 0x90, 0x90, 0x90, 0xE0]
  | 0xE => [0xF0, 0x80, 0xF0, 0x80, 0xF0]
  | _ => [0xF0, 0x80, 0xF0, 0x80, 0x80]

/-- The bit that the sprite of DXYN has at column cx, row cy of the display: bit 7 of row byte r is at
(x0, y0 + r), bit 0 at (x0 + 7, y0 + r), and there is none outside (R134, R135). -/
def SpriteBit (x y n : Nibble) (s : State) (cx : Fin 64) (cy : Fin 32) : Prop :=
  let x0 := (s.getV x).toNat % 64
  let y0 := (s.getV y).toNat % 32
  ∃ r c : Nat, r < n.toNat ∧ c < 8 ∧ cy.val = y0 + r ∧ cx.val = x0 + c ∧
    (s.mem.read (s.i.toNat + r)).getLsbD (7 - c) = true

/-- The bytes of DXYN's sprite all lie in memory; with N = 0 it reads none (R134, R138). -/
def SpriteReadable (n : Nibble) (s : State) : Prop := n = 0 ∨ s.i.toNat + n.toNat ≤ 0x1000

/-- The word that the two bytes at PC hold, the byte at PC the more significant (R41). -/
def WordAtPc (s : State) (w : Word) : Prop :=
  w.toNat = (s.mem.read s.pc.toNat).toNat * 256 + (s.mem.read (s.pc.toNat + 1)).toNat

/-- The next step of `t` halts at its fetch, with the first address above 0xFFF that it needs (R44, R34). -/
def FetchHalts (t : State) : Prop :=
  step t = .next { t with run := .halted (.memoryOutOfBounds (max t.pc.toNat 0x1000)) }

/-- A host operation that starts the machine again: reset, or a load_rom that is not rejected (R168). -/
def Restarts (op : HostOp) : Prop :=
  op = .reset ∨ ∃ b : List Byte, op = .loadRom b ∧ b.length ≤ 3584

end Sys2Proof.Claims

open Sys2Proof Sys2Proof.Machine Sys2Proof.Safety Sys2Proof.Claims

/-! ## Encoding -/

/-- The decoder vectors of 95_test_vectors.md L2-DEC, words written out from the patterns of R56 and R58. -/
def Obligations.DecodesWordsOfTheVectors : Prop :=
  decode 0x00E0 = .instr .cls ∧ decode 0x00EE = .instr .ret ∧ decode 0x1ABC = .instr (.jp 0xABC) ∧
  decode 0x2ABC = .instr (.call 0xABC) ∧ decode 0x3A5F = .instr (.seImm 0xA 0x5F) ∧
  decode 0x5AB0 = .instr (.seReg 0xA 0xB) ∧ decode 0x8AB6 = .instr (.shr 0xA 0xB) ∧
  decode 0xBFFF = .instr (.jpV0 0xFFF) ∧ decode 0xD000 = .instr (.drw 0 0 0) ∧
  decode 0xE5A1 = .instr (.sknp 5) ∧ decode 0xF50A = .instr (.ldVxK 5) ∧
  decode 0xFF65 = .instr (.loadRegs 0xF) ∧ decode 0x0000 = .invalid 0x0000 ∧
  decode 0x00E1 = .invalid 0x00E1 ∧ decode 0x5121 = .invalid 0x5121 ∧ decode 0x8008 = .invalid 0x8008 ∧
  decode 0x800F = .invalid 0x800F ∧ decode 0x9121 = .invalid 0x9121 ∧ decode 0xE09F = .invalid 0xE09F ∧
  decode 0xF0FF = .invalid 0xF0FF

/-- R65, which the spec derives from R56 and R57: encoding inverts decoding on every instruction, with every
operand at every value, and on every word. -/
def Obligations.DecodeEncodeAgree : Prop :=
  (∀ i : Instr, decode (encode i) = .instr i) ∧
  (∀ (w : Word) (i : Instr), decode w = .instr i → encode i = w)

/-- R58 (which the spec derives from R57) and R59: a word decodes to the invalid variant, carrying itself,
exactly when R58 lists it. -/
def Obligations.InvalidWordsAreThoseListed : Prop :=
  (∀ w : Word, decode w = .invalid w ↔ invalidWord w = true) ∧
  (∀ w w' : Word, decode w = .invalid w' → w' = w)

/-- The opcode table and the decoder agree: the table has 34 rows; a word that decodes to an instruction is
covered by that instruction's row, which stands in the table, and by no other row of it; and an invalid word is
covered by no row. -/
def Obligations.OpcodeTableAgreesWithDecoder : Prop :=
  opcodeTable.length = 34 ∧ ∀ w : Word,
    (∀ i, decode w = .instr i → i.row ∈ opcodeTable ∧ i.row.covers w = true ∧
      ∀ r ∈ opcodeTable, r.covers w = true → r = i.row) ∧
    (∀ w', decode w = .invalid w' → ∀ r ∈ opcodeTable, r.covers w = false)

/-! ## Memory -/

/-- The model's own form of memory (notes/assumptions/5.md) is canonical: two well-formed memories that read
alike are equal. -/
def Obligations.MemoryFormIsCanonical : Prop :=
  ∀ m m' : Memory, m.wf → m'.wf → (∀ a, m.read a = m'.read a) → m = m'

/-! ## Reset and load -/

/-- R31: what reset leaves, whatever the state before it. -/
def Obligations.ResetLeavesTheResetValues : Prop :=
  ∀ s : State, ∃ t, hostOp .reset s = (t, .none) ∧
    (∀ d : Fin 16, t.mem.readBytes (0x050 + 5 * d.val) 5 = glyph d) ∧
    (∀ a, a < 0x050 ∨ 0x0A0 ≤ a → t.mem.read a = 0) ∧
    (∀ r, t.getV r = 0) ∧ t.i = 0 ∧ t.pc = 0x0200 ∧ (∀ k : Fin 16, t.stack[k.val] = 0) ∧ t.sp = 0 ∧
    t.dt = 0 ∧ t.st = 0 ∧ (∀ x y, t.display.cell x y = false) ∧ (∀ k : Fin 16, t.keys[k.val] = false) ∧
    t.run = .running

/-- R183: every reset produces the same state, whatever the session did before it. The counter of draws is the
model's own field and goes on counting. -/
def Obligations.ResetForgetsThePast : Prop :=
  ∀ (ops : List HostOp) (s : State),
    { session (ops ++ [.reset]) s with draws := 0 } = State.reset

/-- R181: load_rom rejects a long ROM whole; else it resets and copies to 0x200, and every other byte is as after
reset. That the memory is then in canonical form is a clause about the model's own form (notes/assumptions/5.md),
no part of R181. -/
def Obligations.LoadRomResetsAndCopies : Prop :=
  ∀ (b : List Byte) (s : State),
    (3584 < b.length → hostOp (.loadRom b) s = (s, .romTooLarge)) ∧
    (b.length ≤ 3584 → ∃ t, hostOp (.loadRom b) s = (t, .ok) ∧
      (∀ j : Nat, ∀ v : Byte, b[j]? = some v → t.mem.read (0x200 + j) = v) ∧
      (∀ a, a < 0x200 ∨ 0x200 + b.length ≤ a → t.mem.read a = State.reset.mem.read a) ∧
      t.mem.wf ∧ { t with mem := [], draws := 0 } = State.reset)

/-- R182, R185, which the spec derives from R181, R31 and R59: with no program loaded the first step fetches
0x0000 at 0x200 and halts. -/
def Obligations.EmptyMachineHaltsAtFirstStep : Prop :=
  ∀ s : State, ∀ op ∈ [HostOp.reset, .loadRom []],
    (session [op, .step] s).run = .halted (.invalidOpcode 0x0000) ∧ (session [op, .step] s).pc = 0x200 ∧
    (hostOp .step (session [op] s)).2 = .stepped (.failure (.invalidOpcode 0x0000))

/-! ## The step -/

/-- R75, R41: in Running, with PC ≤ 0xFFE, a step runs the instruction that the big-endian word at PC decodes
to. -/
def Obligations.StepRunsDecodedInstruction : Prop :=
  ∀ (s : State) (w : Word) (i : Instr), s.run = .running → s.pc.toNat ≤ 0xFFE → WordAtPc s w →
    decode w = .instr i → step s = exec i s

/-- R44, R34: a fetch at PC > 0xFFE halts with the first address above 0xFFF that it needs. -/
def Obligations.FetchAboveMemoryHalts : Prop :=
  ∀ s : State, s.run = .running → 0xFFE < s.pc.toNat → FetchHalts s

/-- R78: a fetched invalid word halts with InvalidOpcode of that word, and nothing else changes. -/
def Obligations.InvalidWordHalts : Prop :=
  ∀ (s : State) (w : Word), s.run = .running → s.pc.toNat ≤ 0xFFE → WordAtPc s w → invalidWord w = true →
    hostOp .step s = ({ s with run := .halted (.invalidOpcode w) }, .stepped (.failure (.invalidOpcode w)))

/-- R168: a step in Halted reports the recorded fault and changes nothing, and only reset and an accepted
load_rom leave Halted. -/
def Obligations.HaltedIsLeftOnlyByRestart : Prop :=
  ∀ (s : State) (f : Fault), s.run = .halted f →
    hostOp .step s = (s, .stepped (.failure f)) ∧
    ∀ op : HostOp, (Restarts op → (hostOp op s).1.run = .running) ∧
      (¬ Restarts op → (hostOp op s).1.run = .halted f)

/-- R73, R74: a step that waits for a key changes nothing when none is pressed, and else resolves the wait with
the lowest-numbered pressed key, PC and the keys staying as they are; both succeed. -/
def Obligations.KeyWaitTakesLowestKey : Prop :=
  ∀ (s : State) (x : Nibble), s.run = .blockedOnKey x →
    ((∀ k : Fin 16, s.keys[k.val] = false) → hostOp .step s = (s, .stepped .success)) ∧
    ∀ k : Fin 16, s.keys[k.val] = true → (∀ j : Fin 16, j < k → s.keys[j.val] = false) →
      ∃ t, hostOp .step s = (t, .stepped .success) ∧ (t.getV x).toNat = k.val ∧ SameVBut (· = x) s t ∧
        t = { s with v := t.v, run := .running }

/-- Every step answers a next state: no instruction is refused, and a fault is a halted state (R71, R72). -/
def Obligations.StepAlwaysAnswersNextState : Prop :=
  (∀ (i : Instr) (s : State), ∃ t, exec i s = .next t) ∧ ∀ s : State, ∃ t, step s = .next t

/-- R80, R163: a step in Running halts exactly when one of the checks fails, with the fault of the first that
does; else it leaves Running or, by FX0A, waits for a key. -/
def Obligations.StepFaultsExactlyByTheChecks : Prop :=
  ∀ s t : State, s.run = .running → step s = .next t →
    match faultCause s with
    | some f => t = { s with run := .halted f }
    | none => t.run = .running ∨
        ∃ x w, WordAtPc s w ∧ decode w = .instr (.ldVxK x) ∧ t.run = .blockedOnKey x

/-- R164: fault entry is precise. -/
def Obligations.FaultEntryIsPrecise : Prop :=
  ∀ (s t : State) (f : Fault), s.run = .running → step s = .next t → t.run = .halted f →
    t = { s with run := .halted f } ∧ hostOp .step s = (t, .stepped (.failure f))

/-- R72: a step returns Failure(f) when it started in Halted(f) or raised f, and Success otherwise. -/
def Obligations.StepResultIsFailureOnlyOnFault : Prop :=
  ∀ s : State,
    (∀ f, (hostOp .step s).2 = .stepped (.failure f) ↔
      s.run = .halted f ∨ (s.run = .running ∧ faultCause s = some f)) ∧
    ((hostOp .step s).2 = .stepped .success ↔
      (∀ f, s.run ≠ .halted f) ∧ (s.run = .running → faultCause s = none))

/-! ## Invariants -/

/-- The invariant that the model makes of R77 (which the spec derives from R75 and R76) and of its memory form
(notes/assumptions/5.md) holds after reset. -/
def Obligations.InvariantAtReset : Prop := Inv State.reset

/-- R77, which the spec derives from R75 and R76: every step keeps PC at most 0x10FE, the return addresses at
most 0x1000 and the memory in the model's canonical form (notes/assumptions/5.md). -/
def Obligations.StepKeepsInvariant : Prop := ∀ s t : State, Inv s → step s = .next t → Inv t

/-- R77, which the spec derives from R75 and R76, over sessions: no sequence of host operations breaks the bounds
of PC and of the return addresses, nor the model's own canonical form of memory (notes/assumptions/5.md). -/
def Obligations.SessionKeepsInvariant : Prop :=
  ∀ (ops : List HostOp) (s : State), Inv s → Inv (session ops s)

/-! ## Timers, keys and boundary errors -/

/-- R149: a tick takes one from each timer that is not 0 and changes nothing else, in every run state. -/
def Obligations.TickDecrementsTimers : Prop :=
  ∀ s : State, ∃ t, hostOp .tick s = (t, .none) ∧ t = { s with dt := t.dt, st := t.st } ∧
    (0 < s.dt.toNat → t.dt.toNat = s.dt.toNat - 1) ∧ (s.dt = 0 → t.dt = 0) ∧
    (0 < s.st.toNat → t.st.toNat = s.st.toNat - 1) ∧ (s.st = 0 → t.st = 0)

/-- R149, L1-6: n ticks take n from each timer and never go below 0. -/
def Obligations.TicksSaturateAtZero : Prop :=
  ∀ (n : Nat) (s : State),
    (session (List.replicate n .tick) s).dt.toNat = s.dt.toNat - n ∧
    (session (List.replicate n .tick) s).st.toNat = s.st.toNat - n ∧
    session (List.replicate n .tick) s =
      { s with dt := (session (List.replicate n .tick) s).dt, st := (session (List.replicate n .tick) s).st }

/-- R150, R151: a key event sets or clears the pressed state of its key alone; another code is rejected. -/
def Obligations.KeyEventsSetOneKey : Prop :=
  ∀ (k : Int) (s : State) (p : Bool),
    let op : HostOp := if p then .keyDown k else .keyUp k
    (¬ (0 ≤ k ∧ k ≤ 15) → hostOp op s = (s, .invalidKeyCode k)) ∧
    (0 ≤ k ∧ k ≤ 15 → ∃ t, hostOp op s = (t, .ok) ∧ t = { s with keys := t.keys } ∧
      ∀ j : Fin 16, t.keys[j.val] = if (j.val : Int) = k then p else s.keys[j.val])

/-- R166: a boundary error changes no state. -/
def Obligations.BoundaryErrorsChangeNothing : Prop :=
  ∀ (op : HostOp) (s : State),
    ((hostOp op s).2 = .romTooLarge ↔ ∃ b, op = .loadRom b ∧ 3584 < b.length) ∧
    (∀ k, (hostOp op s).2 = .invalidKeyCode k ↔ (op = .keyDown k ∨ op = .keyUp k) ∧ ¬ (0 ≤ k ∧ k ≤ 15)) ∧
    ((hostOp op s).2 = .romTooLarge ∨ (∃ k, (hostOp op s).2 = .invalidKeyCode k) → (hostOp op s).1 = s)

/-! ## Read ports and the disassembler -/

/-- R159, R141: the memory port gives the 4096 bytes in address order, the display port one byte for each cell,
row-major, and the other two the registers; none changes state. -/
def Obligations.ReadPortsShowTheState : Prop :=
  ∀ s : State,
    (∃ bs, hostOp .readMemory s = (s, .memoryBytes bs) ∧ bs.length = 4096 ∧
      ∀ a, a < 4096 → bs[a]? = some (s.mem.read a)) ∧
    (∃ bs, hostOp .readDisplay s = (s, .displayBytes bs) ∧ bs.length = 2048 ∧
      ∀ (x : Fin 64) (y : Fin 32), bs[y.val * 64 + x.val]? = some (if s.display.cell x y then 1 else 0)) ∧
    hostOp .readPc s = (s, .pcValue s.pc) ∧
    (∃ r, hostOp .readRegisters s = (s, .registers r) ∧ (∀ x : Nibble, r.v[x.toNat]? = some (s.getV x)) ∧
      r.i = s.i ∧ r.sp = s.sp ∧ r.stack = s.stack ∧ r.dt = s.dt ∧ r.st = s.st ∧ r.run = s.run)

/-- R153, R156, R157: the records of a range are those of its complete words inside memory, at start, start + 2,
and so on, with the word and its decoding; no state changes. -/
def Obligations.DisassemblyListsCompleteWords : Prop :=
  ∀ (s : State) (start stop : Int), ∃ rs, hostOp (.disassemble start stop) s = (s, .records rs) ∧
    (start < 0 → rs = []) ∧
    ∀ a : Nat, start = a → ∀ k : Nat,
      rs[k]? = if (a : Int) + 2 * k + 1 < stop ∧ a + 2 * k + 1 ≤ 0xFFF then
          some ⟨u16 (a + 2 * k), s.mem.wordAt (a + 2 * k), decode (s.mem.wordAt (a + 2 * k))⟩
        else none

/-- R157: a record's operation is what the interpreter executes when PC reaches its address. -/
def Obligations.DisassemblyAgreesWithStep : Prop :=
  ∀ (s : State) (start stop : Int) (r : Record), s.run = .running → r ∈ disassemble s.mem start stop →
    s.pc = r.address →
    (∀ i, r.op = .instr i → step s = exec i s) ∧
    (∀ w, r.op = .invalid w → step s = .next { s with run := .halted (.invalidOpcode w) })

/-! ## Control transfer -/

/-- R86, R92: 1NNN goes to NNN and BNNN to NNN + V0, unmasked; nothing else changes, and a target above 0xFFE
faults at the next fetch. -/
def Obligations.JumpsReachTheirTargets : Prop :=
  ∀ (nnn : Addr12) (s : State),
    decode (0x1#4 ++ nnn) = .instr (.jp nnn) ∧ decode (0xB#4 ++ nnn) = .instr (.jpV0 nnn) ∧
    (∃ t, exec (.jp nnn) s = .next t ∧ t.pc.toNat = nnn.toNat ∧ t = { s with pc := t.pc }) ∧
    (∃ t, exec (.jpV0 nnn) s = .next t ∧ t.pc.toNat = nnn.toNat + (s.getV 0).toNat ∧
      t = { s with pc := t.pc } ∧ (s.run = .running → 0xFFE < t.pc.toNat → FetchHalts t))

/-- R87: 2NNN pushes PC + 2 and goes to NNN, or halts with StackOverflow at SP = 16. -/
def Obligations.CallPushesReturnAddress : Prop :=
  ∀ (nnn : Addr12) (s : State), decode (0x2#4 ++ nnn) = .instr (.call nnn) ∧
    (s.sp = 16 → Raises (.call nnn) s .stackOverflow) ∧
    (s.sp.val < 16 → ∃ t, exec (.call nnn) s = .next t ∧ t.sp.val = s.sp.val + 1 ∧
      t.pc.toNat = nnn.toNat ∧
      (∀ k : Fin 16, t.stack[k.val] = if k.val = s.sp.val then s.pc + 2 else s.stack[k.val]) ∧
      t = { s with pc := t.pc, sp := t.sp, stack := t.stack })

/-- R85: 00EE goes to the popped address, unchecked, and keeps the slot, or halts with StackUnderflow at SP =
0. A popped address above 0xFFE faults at the next fetch. -/
def Obligations.ReturnPopsAddress : Prop :=
  ∀ s : State, decode 0x00EE = .instr .ret ∧
    (s.sp = 0 → Raises .ret s .stackUnderflow) ∧
    (∀ k : Fin 16, s.sp.val = k.val + 1 → ∃ t, exec .ret s = .next t ∧ t.sp.val = k.val ∧
      t.pc = s.stack[k.val] ∧ t = { s with pc := t.pc, sp := t.sp } ∧
      (s.run = .running → 0xFFE < t.pc.toNat → FetchHalts t))

/-- R87, P5: a call to itself from an empty stack succeeds sixteen times, each return address being the one
after it, and the seventeenth step halts with StackOverflow and changes nothing else. -/
def Obligations.SelfCallOverflowsAtTheSeventeenth : Prop :=
  ∀ (s : State) (nnn : Addr12), s.run = .running → s.sp = 0 → nnn.toNat ≤ 0xFFE → s.pc.toNat = nnn.toNat →
    WordAtPc s (encode (.call nnn)) →
    (∀ n : Fin 17, let t := session (List.replicate n.val .step) s
      t.run = .running ∧ t.sp = n ∧ t.pc = s.pc ∧
      ∀ k : Fin 16, t.stack[k.val] = if k.val < n.val then s.pc + 2 else s.stack[k.val]) ∧
    session (List.replicate 17 .step) s =
      { session (List.replicate 16 .step) s with run := .halted .stackOverflow }

/-- R94, which the spec derives from R85 and R87: a call whose target is 00EE comes back to the instruction
after it, with SP as before and the return address still in its slot. -/
def Obligations.CallThenReturnComesBack : Prop :=
  ∀ (s t u : State) (nnn : Addr12), s.run = .running → s.pc.toNat ≤ 0xFFE → s.sp.val < 16 →
    WordAtPc s (encode (.call nnn)) → nnn.toNat ≤ 0xFFE → s.mem.wordAt nnn.toNat = 0x00EE →
    step s = .next t → step t = .next u →
    u.pc = s.pc + 2 ∧ u.sp = s.sp ∧ u.run = .running ∧
    ∀ k : Fin 16, u.stack[k.val] = if k.val = s.sp.val then s.pc + 2 else s.stack[k.val]

/-- R88 to R91: the four register skips write nothing but PC, by their conditions. -/
def Obligations.RegisterSkipsFollowTheirConditions : Prop :=
  ∀ (x y : Nibble) (nn : Byte) (s : State),
    decode (0x3#4 ++ x ++ nn) = .instr (.seImm x nn) ∧ decode (0x4#4 ++ x ++ nn) = .instr (.sneImm x nn) ∧
    decode (0x5#4 ++ x ++ y ++ 0x0#4) = .instr (.seReg x y) ∧
    decode (0x9#4 ++ x ++ y ++ 0x0#4) = .instr (.sneReg x y) ∧
    SkipsWhen (.seImm x nn) s (s.getV x = nn) ∧ SkipsWhen (.sneImm x nn) s (s.getV x ≠ nn) ∧
    SkipsWhen (.seReg x y) s (s.getV x = s.getV y) ∧ SkipsWhen (.sneReg x y) s (s.getV x ≠ s.getV y)

/-- R143, R144: the key skips read the key that V[X] names, and halt with InvalidKeyCode above 0xF. -/
def Obligations.KeySkipsReadTheNamedKey : Prop :=
  ∀ (x : Nibble) (s : State),
    decode (0xE#4 ++ x ++ 0x9E#8) = .instr (.skp x) ∧ decode (0xE#4 ++ x ++ 0xA1#8) = .instr (.sknp x) ∧
    (0xF < (s.getV x).toNat → Raises (.skp x) s (.invalidKeyCode (s.getV x)) ∧
      Raises (.sknp x) s (.invalidKeyCode (s.getV x))) ∧
    (∀ k : Fin 16, (s.getV x).toNat = k.val →
      SkipsWhen (.skp x) s (s.keys[k.val] = true) ∧ SkipsWhen (.sknp x) s (s.keys[k.val] = false))

/-! ## Loads and arithmetic -/

/-- R97, R98, R99: the loads and the immediate add write V[X] alone; the add wraps and sets no flag. -/
def Obligations.LoadsAndAddImmediate : Prop :=
  ∀ (x y : Nibble) (nn : Byte) (s : State),
    decode (0x6#4 ++ x ++ nn) = .instr (.ldImm x nn) ∧ decode (0x7#4 ++ x ++ nn) = .instr (.addImm x nn) ∧
    decode (0x8#4 ++ x ++ y ++ 0x0#4) = .instr (.ldReg x y) ∧
    WritesV (.ldImm x nn) s x nn ∧ WritesV (.addImm x nn) s x (s.getV x + nn) ∧
    WritesV (.ldReg x y) s x (s.getV y)

/-- R100, R101, R102: the logic instructions write V[X] alone; VF is not written as a flag. -/
def Obligations.LogicWritesNoFlag : Prop :=
  ∀ (x y : Nibble) (s : State),
    decode (0x8#4 ++ x ++ y ++ 0x1#4) = .instr (.or x y) ∧
    decode (0x8#4 ++ x ++ y ++ 0x2#4) = .instr (.and x y) ∧
    decode (0x8#4 ++ x ++ y ++ 0x3#4) = .instr (.xor x y) ∧
    WritesV (.or x y) s x (s.getV x ||| s.getV y) ∧ WritesV (.and x y) s x (s.getV x &&& s.getV y) ∧
    WritesV (.xor x y) s x (s.getV x ^^^ s.getV y)

/-- R103: 8XY4 adds modulo 256, then VF ← carry. -/
def Obligations.AddRegisterSetsCarry : Prop :=
  ∀ (x y : Nibble) (s : State), decode (0x8#4 ++ x ++ y ++ 0x4#4) = .instr (.addReg x y) ∧
    WritesVFlag (.addReg x y) s x (s.getV x + s.getV y)
      (if 0xFF < (s.getV x).toNat + (s.getV y).toNat then 1 else 0)

/-- R104, R106: 8XY5 and 8XY7 subtract modulo 256, then VF ← no borrow, which is 1 at equality. -/
def Obligations.SubtractionsSetNoBorrow : Prop :=
  ∀ (x y : Nibble) (s : State),
    decode (0x8#4 ++ x ++ y ++ 0x5#4) = .instr (.sub x y) ∧
    decode (0x8#4 ++ x ++ y ++ 0x7#4) = .instr (.subn x y) ∧
    WritesVFlag (.sub x y) s x (s.getV x - s.getV y)
      (if (s.getV x).toNat < (s.getV y).toNat then 0 else 1) ∧
    WritesVFlag (.subn x y) s x (s.getV y - s.getV x)
      (if (s.getV y).toNat < (s.getV x).toNat then 0 else 1)

/-- R105, R107: the shifts move V[X] by one, whatever V[Y] holds, then VF ← the bit shifted out. -/
def Obligations.ShiftsSetTheBitOut : Prop :=
  ∀ (x y : Nibble) (s : State),
    decode (0x8#4 ++ x ++ y ++ 0x6#4) = .instr (.shr x y) ∧
    decode (0x8#4 ++ x ++ y ++ 0xE#4) = .instr (.shl x y) ∧
    WritesVFlag (.shr x y) s x (s.getV x >>> 1) (s.getV x &&& 1) ∧
    WritesVFlag (.shl x y) s x (s.getV x <<< 1) (s.getV x >>> 7)

/-- R109, which the spec derives from R96 and R103 to R107: the results with X = Y and with X = 0xF, for the
five flag-writing instructions. -/
def Obligations.SameRegisterAndFlagRegisterCases : Prop :=
  ∀ (x y : Nibble) (s : State),
    let a := s.getV x
    let b := s.getV y
    let vf (i : Instr) (f : Byte) : Prop := ∃ t, exec i s = .next t ∧ t.getV 0xF = f
    let both (i : Instr) (r f : Byte) : Prop := ∃ t, exec i s = .next t ∧ t.getV x = r ∧ t.getV 0xF = f
    (x = y → x ≠ 0xF →
      both (.addReg x y) (2 * a) (if 0xFF < 2 * a.toNat then 1 else 0) ∧ both (.sub x y) 0 1 ∧
      both (.shr x y) (a >>> 1) (a &&& 1) ∧ both (.subn x y) 0 1 ∧ both (.shl x y) (a <<< 1) (a >>> 7)) ∧
    (x = 0xF → y ≠ 0xF →
      vf (.addReg x y) (if 0xFF < a.toNat + b.toNat then 1 else 0) ∧
      vf (.sub x y) (if b.toNat ≤ a.toNat then 1 else 0) ∧ vf (.shr x y) (a &&& 1) ∧
      vf (.subn x y) (if a.toNat ≤ b.toNat then 1 else 0) ∧ vf (.shl x y) (a >>> 7)) ∧
    (x = 0xF → y = 0xF →
      vf (.addReg x y) (if 0xFF < 2 * a.toNat then 1 else 0) ∧ vf (.sub x y) 1 ∧
      vf (.shr x y) (a &&& 1) ∧ vf (.subn x y) 1 ∧ vf (.shl x y) (a >>> 7))

/-- R108, R32: CXNN writes a drawn byte under the mask, whichever byte is drawn; the model's counter then
stands at the next draw (the model's choice, notes/assumptions/1.md). -/
def Obligations.RandomWritesAnyMaskedByte : Prop :=
  ∀ (x : Nibble) (nn : Byte) (s : State), decode (0xC#4 ++ x ++ nn) = .instr (.rnd x nn) ∧
    (∃ r : Byte, exec (.rnd x nn) s = rndWith r x nn s) ∧
    (∃ t, exec (.rnd x nn) s = .next t ∧ t.getV x &&& ~~~nn = 0) ∧
    ∀ r : Byte, ∃ t, rndWith r x nn s = .next t ∧ t.getV x = r &&& nn ∧ SameVBut (· = x) s t ∧
      SameOutsideV s t ∧ t.draws = s.draws + 1 ∧ t.pc.toNat = (s.pc.toNat + 2) % 65536

/-! ## The address register and memory transfers -/

/-- R118, R119, R120: the three writers of I write nothing else but PC. -/
def Obligations.AddressRegisterWrites : Prop :=
  ∀ (nnn : Addr12) (x : Nibble) (s : State),
    decode (0xA#4 ++ nnn) = .instr (.ldI nnn) ∧ decode (0xF#4 ++ x ++ 0x1E#8) = .instr (.addI x) ∧
    decode (0xF#4 ++ x ++ 0x29#8) = .instr (.ldF x) ∧
    (∃ t, exec (.ldI nnn) s = .next t ∧ t.i.toNat = nnn.toNat ∧ t = { s with i := t.i, pc := s.pc + 2 }) ∧
    (∃ t, exec (.addI x) s = .next t ∧ t.i.toNat = (s.i.toNat + (s.getV x).toNat) % 65536 ∧
      t = { s with i := t.i, pc := s.pc + 2 }) ∧
    (∃ t, exec (.ldF x) s = .next t ∧ t.i.toNat = 0x050 + 5 * (s.getV x).toNat ∧
      t = { s with i := t.i, pc := s.pc + 2 })

/-- R121: FX33 stores the hundreds, tens and ones of V[X] at I, I + 1 and I + 2, or halts and stores nothing. -/
def Obligations.BcdStoresThreeDigits : Prop :=
  ∀ (x : Nibble) (s : State), s.mem.wf → decode (0xF#4 ++ x ++ 0x33#8) = .instr (.ldB x) ∧
    (0xFFF < s.i.toNat + 2 → Raises (.ldB x) s (.memoryOutOfBounds (max s.i.toNat 0x1000))) ∧
    (s.i.toNat + 2 ≤ 0xFFF → ∃ t, exec (.ldB x) s = .next t ∧
      (∃ h d o : Byte, t.mem.read s.i.toNat = h ∧ t.mem.read (s.i.toNat + 1) = d ∧
        t.mem.read (s.i.toNat + 2) = o ∧ h.toNat * 100 + d.toNat * 10 + o.toNat = (s.getV x).toNat ∧
        h.toNat ≤ 9 ∧ d.toNat ≤ 9 ∧ o.toNat ≤ 9) ∧
      (∀ a, a < s.i.toNat ∨ s.i.toNat + 3 ≤ a → t.mem.read a = s.mem.read a) ∧
      t = { s with mem := t.mem, pc := s.pc + 2 })

/-- R122: FX55 stores V0..VX from I on and leaves I, or halts and stores nothing. -/
def Obligations.StoreRegistersCopiesToMemory : Prop :=
  ∀ (x : Nibble) (s : State), s.mem.wf → decode (0xF#4 ++ x ++ 0x55#8) = .instr (.storeRegs x) ∧
    (0xFFF < s.i.toNat + x.toNat →
      Raises (.storeRegs x) s (.memoryOutOfBounds (max s.i.toNat 0x1000))) ∧
    (s.i.toNat + x.toNat ≤ 0xFFF → ∃ t, exec (.storeRegs x) s = .next t ∧
      (∀ r : Nibble, r.toNat ≤ x.toNat → t.mem.read (s.i.toNat + r.toNat) = s.getV r) ∧
      (∀ a, a < s.i.toNat ∨ s.i.toNat + x.toNat < a → t.mem.read a = s.mem.read a) ∧
      t = { s with mem := t.mem, pc := s.pc + 2 })

/-- R123: FX65 loads V0..VX from I on and leaves I and the registers above X, or halts and loads nothing. -/
def Obligations.LoadRegistersCopiesFromMemory : Prop :=
  ∀ (x : Nibble) (s : State), decode (0xF#4 ++ x ++ 0x65#8) = .instr (.loadRegs x) ∧
    (0xFFF < s.i.toNat + x.toNat →
      Raises (.loadRegs x) s (.memoryOutOfBounds (max s.i.toNat 0x1000))) ∧
    (s.i.toNat + x.toNat ≤ 0xFFF → ∃ t, exec (.loadRegs x) s = .next t ∧
      (∀ r : Nibble, r.toNat ≤ x.toNat → t.getV r = s.mem.read (s.i.toNat + r.toNat)) ∧
      SameVBut (fun r => r.toNat ≤ x.toNat) s t ∧ t = { s with v := t.v, pc := s.pc + 2 })

/-- R50, R187, which the spec derives from R48 and R36: a word that FX55 stores at PC + 2 is the word the next
step runs. -/
def Obligations.StoredWordIsFetchedNext : Prop :=
  ∀ (x p q : Nibble) (s t : State) (i : Instr), s.mem.wf → s.run = .running →
    s.i.toNat + x.toNat ≤ 0xFFF → p.toNat + 1 = q.toNat → q.toNat ≤ x.toNat →
    s.i.toNat + p.toNat = s.pc.toNat + 2 → decode (s.getV p ++ s.getV q) = .instr i →
    exec (.storeRegs x) s = .next t → step t = exec i t

/-! ## The display -/

/-- R133: 00E0 turns every cell off and writes nothing else but PC. -/
def Obligations.ClearTurnsAllCellsOff : Prop :=
  ∀ s : State, decode 0x00E0 = .instr .cls ∧ ∃ t, exec .cls s = .next t ∧
    (∀ x y, t.display.cell x y = false) ∧ t = { s with display := t.display, pc := s.pc + 2 }

/-- R134 to R139: DXYN flips exactly the cells under a sprite bit, clipped at the edges, and VF ends as the
collision; a sprite not wholly in memory halts and draws nothing, and with N = 0 nothing is read or drawn. -/
def Obligations.DrawXorsTheSprite : Prop :=
  ∀ (x y n : Nibble) (s : State), decode (0xD#4 ++ x ++ y ++ n) = .instr (.drw x y n) ∧
    (¬ SpriteReadable n s → Raises (.drw x y n) s (.memoryOutOfBounds (max s.i.toNat 0x1000))) ∧
    (SpriteReadable n s → ∃ t, exec (.drw x y n) s = .next t ∧
      (∀ cx cy, SpriteBit x y n s cx cy → t.display.cell cx cy = !s.display.cell cx cy) ∧
      (∀ cx cy, ¬ SpriteBit x y n s cx cy → t.display.cell cx cy = s.display.cell cx cy) ∧
      ((∃ cx cy, SpriteBit x y n s cx cy ∧ s.display.cell cx cy = true) → t.getV 0xF = 1) ∧
      ((∀ cx cy, SpriteBit x y n s cx cy → s.display.cell cx cy = false) → t.getV 0xF = 0) ∧
      SameVBut (· = 0xF) s t ∧ t = { s with v := t.v, display := t.display, pc := s.pc + 2 })

/-- R140 (which the spec derives from R134 and R136) with R137: the same sprite drawn twice at the same
position restores the display, and the second draw sets VF = 1 exactly when some visible sprite bit lay on a
cell that was off at first. (R140 says "when the sprite has at least one bit 1 at a drawn position"; where all
those cells were on at first, R137, which defines the flag, gives 0: notes/assumptions/8.md.) -/
def Obligations.DrawTwiceRestoresDisplay : Prop :=
  ∀ (x y n : Nibble) (s t s' u : State), SpriteReadable n s → exec (.drw x y n) s = .next t →
    s'.display = t.display → s'.mem = s.mem → s'.i = s.i →
    (s'.getV x).toNat % 64 = (s.getV x).toNat % 64 → (s'.getV y).toNat % 32 = (s.getV y).toNat % 32 →
    exec (.drw x y n) s' = .next u →
    u.display = s.display ∧
    ((∃ cx cy, SpriteBit x y n s cx cy ∧ s.display.cell cx cy = false) → u.getV 0xF = 1) ∧
    ((∀ cx cy, SpriteBit x y n s cx cy → s.display.cell cx cy = true) → u.getV 0xF = 0)

/-! ## Timer and key instructions -/

/-- R145, R146, R147: the timer instructions copy between V[X] and a timer. -/
def Obligations.TimerCopies : Prop :=
  ∀ (x : Nibble) (s : State),
    decode (0xF#4 ++ x ++ 0x07#8) = .instr (.ldVxDt x) ∧ decode (0xF#4 ++ x ++ 0x15#8) = .instr (.ldDtVx x) ∧
    decode (0xF#4 ++ x ++ 0x18#8) = .instr (.ldStVx x) ∧
    WritesV (.ldVxDt x) s x s.dt ∧
    exec (.ldDtVx x) s = .next { s with dt := s.getV x, pc := s.pc + 2 } ∧
    exec (.ldStVx x) s = .next { s with st := s.getV x, pc := s.pc + 2 }

/-- R148, R74: FX0A moves PC on, writes no register and waits; with a key pressed the very next step writes the
lowest one to V[X] and leaves PC. -/
def Obligations.WaitForKeyThenResolve : Prop :=
  ∀ (x : Nibble) (s : State), decode (0xF#4 ++ x ++ 0x0A#8) = .instr (.ldVxK x) ∧
    exec (.ldVxK x) s = .next { s with run := .blockedOnKey x, pc := s.pc + 2 } ∧
    ∀ (t : State) (k : Fin 16), exec (.ldVxK x) s = .next t → s.keys[k.val] = true →
      (∀ j : Fin 16, j < k → s.keys[j.val] = false) →
      ∃ u, step t = .next u ∧ (u.getV x).toNat = k.val ∧ u.pc = s.pc + 2 ∧ u.run = .running ∧
        SameVBut (· = x) s u

/-! ## Who writes what: rules over all instructions -/

/-- R18, R19: no instruction writes a general register that R19 does not give it, a key wait writes only its
register, a step in Halted writes none, and no other host operation but reset and load_rom writes one. -/
def Obligations.GeneralRegistersChangeOnlyByTheirWriters : Prop :=
  (∀ (i : Instr) (s t : State), exec i s = .next t → SameVBut (MayWriteV i) s t) ∧
  (∀ (s t : State) (x : Nibble), s.run = .blockedOnKey x → step s = .next t → SameVBut (· = x) s t) ∧
  (∀ (s t : State) (f : Fault), s.run = .halted f → step s = .next t → SameVBut (fun _ => False) s t) ∧
  (∀ (op : HostOp) (s : State), op ≠ .step → ¬ Restarts op → SameVBut (fun _ => False) s (hostOp op s).1)

/-- R37, R121, R122: memory changes only where FX33 and FX55 store, and by reset and load_rom; a step that is not
in Running changes no byte. -/
def Obligations.MemoryChangesOnlyWhereStored : Prop :=
  (∀ (i : Instr) (s t : State) (a : Nat), exec i s = .next t →
    a < s.i.toNat ∨ s.i.toNat + storedAtI i ≤ a → t.mem.read a = s.mem.read a) ∧
  (∀ (op : HostOp) (s : State), op ≠ .step → ¬ Restarts op → SameMem s (hostOp op s).1) ∧
  (∀ s t : State, s.run ≠ .running → step s = .next t → SameMem s t)

/-- R117, R21: I changes only by ANNN, FX1E and FX29, and by reset and load_rom; a step that is not in Running
leaves it. -/
def Obligations.AddressRegisterChangesOnlyByItsWriters : Prop :=
  (∀ (i : Instr) (s t : State), exec i s = .next t → t.i ≠ s.i →
    (∃ nnn, i = .ldI nnn) ∨ (∃ x, i = .addI x) ∨ (∃ x, i = .ldF x)) ∧
  (∀ (op : HostOp) (s : State), op ≠ .step → ¬ Restarts op → (hostOp op s).1.i = s.i) ∧
  (∀ s t : State, s.run ≠ .running → step s = .next t → t.i = s.i)

/-- R142: the display changes only by 00E0, DXYN, reset and load_rom. -/
def Obligations.DisplayChangesOnlyByItsWriters : Prop :=
  (∀ (i : Instr) (s t : State), exec i s = .next t → t.display ≠ s.display →
    i = .cls ∨ ∃ x y n, i = .drw x y n) ∧
  (∀ (op : HostOp) (s : State), op ≠ .step → ¬ Restarts op → (hostOp op s).1.display = s.display) ∧
  (∀ s t : State, s.run ≠ .running → step s = .next t → t.display = s.display)

/-- R22, R24, R26, R173: only 2NNN and 00EE change the stack, only FX15 and FX18 the timers, and no step
changes a key; only CXNN moves the model's counter of draws. -/
def Obligations.StackTimersAndKeysChangeOnlyByTheirWriters : Prop :=
  (∀ (i : Instr) (s t : State), exec i s = .next t →
    (¬ SameStack s t → i = .ret ∨ ∃ nnn, i = .call nnn) ∧
    (t.dt ≠ s.dt → ∃ x, i = .ldDtVx x) ∧ (t.st ≠ s.st → ∃ x, i = .ldStVx x) ∧
    (t.draws ≠ s.draws → ∃ x nn, i = .rnd x nn)) ∧
  (∀ s t : State, step s = .next t → SameKeys s t) ∧
  (∀ s t : State, s.run ≠ .running → step s = .next t → SameStack s t ∧ t.dt = s.dt ∧ t.st = s.st)

/-- R172, R176: an instruction leaves RUN, but for FX0A, which waits for a key, and for one whose own check
fails, which halts. -/
def Obligations.RunStateChangesOnlyByWaitOrFault : Prop :=
  ∀ (i : Instr) (s t : State), exec i s = .next t →
    match instrFault i s with
    | some f => t = { s with run := .halted f }
    | none => t.run = s.run ∨ ∃ x, i = .ldVxK x ∧ t.run = .blockedOnKey x

/-- R82: an idle state and a waiting state are stable under step, and an idle one stays idle, and so safe, under
any mix of steps and ticks. -/
def Obligations.IdleAndWaitingStatesAreStable : Prop :=
  (∀ s : State, Idle s ∨ Waiting s → step s = .next s) ∧
  (∀ (ops : List HostOp) (s : State), Idle s → (∀ op ∈ ops, op = .step ∨ op = .tick) →
    Idle (session ops s) ∧ SafeSession ops s)

/-- R191, R149: the loop FX07, 3X00, 1NNN (back to the FX07) waits for DT. While fewer ticks have come than DT
held, it has not ended, whatever else the host does but restart; and if ticks keep coming, which R191 makes a
fairness assumption on the host, and steps keep coming too, it ends at the instruction after it. That a schedule
also keeps stepping is a hypothesis of this statement (notes/assumptions/12.md), no word of R191. -/
def Obligations.DelayLoopEndsWhenTicksKeepComing : Prop :=
  ∀ (ops : Schedule) (s : State) (x : Nibble) (a : Addr12), (∀ n, ¬ Restarts (ops n)) →
    s.run = .running → s.pc.toNat = a.toNat → a.toNat + 4 ≤ 0xFFE →
    s.mem.wordAt a.toNat = encode (.ldVxDt x) → s.mem.wordAt (a.toNat + 2) = encode (.seImm x 0) →
    s.mem.wordAt (a.toNat + 4) = encode (.jp a) →
    (∀ n, ((List.range n).map ops).count .tick < s.dt.toNat →
      (scheduled ops n s).run = .running ∧
      (scheduled ops n s).pc.toNat ∈ [a.toNat, a.toNat + 2, a.toNat + 4]) ∧
    (TicksKeepComing ops → KeepsComing .step ops →
      ∃ n, (scheduled ops n s).run = .running ∧ (scheduled ops n s).pc.toNat = a.toNat + 6)
end

