-- ==== Sys2Proof/Laws/Decode.lean ====
section
/-! SUPPORT. What the fields of R52 read from a word put together from its parts, for the three layouts of R56
(one address, a register with a byte, three nibbles), and the byte order of R41 as arithmetic. -/

namespace Sys2Proof

theorem toNat_append_eq {m n : Nat} (a : BitVec m) (b : BitVec n) :
    (a ++ b).toNat = a.toNat * 2 ^ n + b.toNat := by
  rw [BitVec.toNat_append, ← Nat.shiftLeft_add_eq_or_of_lt b.isLt, Nat.shiftLeft_eq]

theorem wordOfBytes_toNat (hi lo : Byte) : (wordOfBytes hi lo).toNat = hi.toNat * 256 + lo.toNat := by
  simp only [wordOfBytes, toNat_append_eq]
  norm_num

theorem u8_toNat (n : Nat) : (u8 n).toNat = n % 256 := by simp [u8]

theorem u16_toNat (n : Nat) : (u16 n).toNat = n % 65536 := by simp [u16]

/-- The default advance of R76 is addition of 2 modulo 65536. -/
theorem u16_add_two (w : Word) : u16 (w.toNat + 2) = w + 2 := by
  apply BitVec.eq_of_toNat_eq
  simp [u16, BitVec.toNat_add]

theorem u16_add_four (w : Word) : u16 (w.toNat + 4) = w + 4 := by
  apply BitVec.eq_of_toNat_eq
  simp [u16, BitVec.toNat_add]

/-! ## Layout `op nnn` -/

theorem fieldOp_addr (a : Nibble) (n : Addr12) : fieldOp (a ++ n) = a := by
  apply BitVec.eq_of_toNat_eq
  simp only [fieldOp, BitVec.extractLsb'_toNat, toNat_append_eq, Nat.shiftRight_eq_div_pow]
  omega

theorem fieldNNN_addr (a : Nibble) (n : Addr12) : fieldNNN (a ++ n) = n := by
  apply BitVec.eq_of_toNat_eq
  simp only [fieldNNN, BitVec.extractLsb'_toNat, toNat_append_eq, Nat.shiftRight_eq_div_pow]
  omega

/-! ## Layout `op x nn` -/

theorem fieldOp_byte (a x : Nibble) (n : Byte) : fieldOp (a ++ x ++ n) = a := by
  apply BitVec.eq_of_toNat_eq
  simp only [fieldOp, BitVec.extractLsb'_toNat, toNat_append_eq, Nat.shiftRight_eq_div_pow]
  omega

theorem fieldX_byte (a x : Nibble) (n : Byte) : fieldX (a ++ x ++ n) = x := by
  apply BitVec.eq_of_toNat_eq
  simp only [fieldX, BitVec.extractLsb'_toNat, toNat_append_eq, Nat.shiftRight_eq_div_pow]
  omega

theorem fieldNN_byte (a x : Nibble) (n : Byte) : fieldNN (a ++ x ++ n) = n := by
  apply BitVec.eq_of_toNat_eq
  simp only [fieldNN, BitVec.extractLsb'_toNat, toNat_append_eq, Nat.shiftRight_eq_div_pow]
  omega

/-! ## Layout `op x y n` -/

theorem fieldOp_nibbles (a x y n : Nibble) : fieldOp (a ++ x ++ y ++ n) = a := by
  apply BitVec.eq_of_toNat_eq
  simp only [fieldOp, BitVec.extractLsb'_toNat, toNat_append_eq, Nat.shiftRight_eq_div_pow]
  omega

theorem fieldX_nibbles (a x y n : Nibble) : fieldX (a ++ x ++ y ++ n) = x := by
  apply BitVec.eq_of_toNat_eq
  simp only [fieldX, BitVec.extractLsb'_toNat, toNat_append_eq, Nat.shiftRight_eq_div_pow]
  omega

theorem fieldY_nibbles (a x y n : Nibble) : fieldY (a ++ x ++ y ++ n) = y := by
  apply BitVec.eq_of_toNat_eq
  simp only [fieldY, BitVec.extractLsb'_toNat, toNat_append_eq, Nat.shiftRight_eq_div_pow]
  omega

theorem fieldN_nibbles (a x y n : Nibble) : fieldN (a ++ x ++ y ++ n) = n := by
  apply BitVec.eq_of_toNat_eq
  simp only [fieldN, BitVec.extractLsb'_toNat, toNat_append_eq, Nat.shiftRight_eq_div_pow]
  omega

/-- A word is its four nibbles (R52). -/
theorem word_eq_nibbles (w : Word) : w = fieldOp w ++ fieldX w ++ fieldY w ++ fieldN w := by
  apply BitVec.eq_of_toNat_eq
  simp only [toNat_append_eq, fieldOp, fieldX, fieldY, fieldN, BitVec.extractLsb'_toNat,
    Nat.shiftRight_eq_div_pow]
  have := w.isLt
  omega

namespace Machine

theorem Memory.wordAt_toNat (m : Memory) (a : Nat) :
    (m.wordAt a).toNat = (m.read a).toNat * 256 + (m.read (a + 1)).toNat :=
  wordOfBytes_toNat _ _

end Machine

end Sys2Proof
end

