-- ==== Sys2Proof/Laws/Draw.lean ====
section
/-! SUPPORT. The drawing loop of R134 cell by cell: which cells a pixel, a row and a whole sprite flip, and when
the collision is set. -/

namespace Sys2Proof.Machine

/-- Two displays with the same cells are equal. -/
theorem Display.ext_cell {d e : Display} (h : ∀ x y, d.cell x y = e.cell x y) : d = e :=
  Vector.ext fun i hi => Vector.ext fun j hj => h ⟨j, hj⟩ ⟨i, hi⟩

@[simp] theorem Display.cell_clear (x : Fin 64) (y : Fin 32) : Display.clear.cell x y = false := by
  simp [Display.cell, Display.clear]

theorem Display.cell_flip (d : Display) (x cx : Fin 64) (y cy : Fin 32) :
    (d.flip x y).cell cx cy = if cx = x ∧ cy = y then !d.cell x y else d.cell cx cy := by
  unfold Display.flip Display.cell
  by_cases hy : cy = y
  · subst hy
    by_cases hx : cx = x
    · subst hx; simp
    · have : x.val ≠ cx.val := fun e => hx (Fin.ext e.symm)
      simp [hx, Vector.getElem_set_ne _ _ this]
  · have : y.val ≠ cy.val := fun e => hy (Fin.ext e.symm)
    simp [hy, Vector.getElem_set_ne _ _ this]

/-- A pixel flips its own cell, if it is on the display, and no other. -/
theorem drawPixel_cell (x y : Nat) (acc : Display × Bool) (cx : Fin 64) (cy : Fin 32) :
    (drawPixel x y acc).1.cell cx cy =
      if cx.val = x ∧ cy.val = y then !acc.1.cell cx cy else acc.1.cell cx cy := by
  unfold drawPixel
  split
  · rename_i hx
    split
    · rename_i hy
      rw [Display.cell_flip]
      simp only [Fin.ext_iff]
      split
      · rename_i h
        rw [show (⟨x, hx⟩ : Fin 64) = cx from Fin.ext h.1.symm, show (⟨y, hy⟩ : Fin 32) = cy from Fin.ext h.2.symm]
      · rfl
    · have := cy.isLt
      simp
      intro _ h
      omega
  · have := cx.isLt
    simp
    intro h
    omega

/-- A pixel sets the collision when its cell was on. -/
theorem drawPixel_hit (x y : Nat) (acc : Display × Bool) :
    (drawPixel x y acc).2 = true ↔ acc.2 = true ∨
      ∃ (cx : Fin 64) (cy : Fin 32), cx.val = x ∧ cy.val = y ∧ acc.1.cell cx cy = true := by
  unfold drawPixel
  split
  · rename_i hx
    split
    · rename_i hy
      simp only [Bool.or_eq_true]
      constructor
      · rintro (h | h)
        · exact .inl h
        · exact .inr ⟨⟨x, hx⟩, ⟨y, hy⟩, rfl, rfl, h⟩
      · rintro (h | ⟨cx, cy, rfl, rfl, h⟩)
        · exact .inl h
        · exact .inr h
    · refine ⟨.inl, ?_⟩
      rintro (h | ⟨cx, cy, -, rfl, -⟩)
      · exact h
      · exact absurd cy.isLt ‹_›
  · refine ⟨.inl, ?_⟩
    rintro (h | ⟨cx, cy, rfl, -, -⟩)
    · exact h
    · exact absurd cx.isLt ‹_›

/-- The bit of a row byte that lies at column cx, row cy when the row starts at (x0, y); of its first n bits. -/
def RowBit (x0 y : Nat) (row : Byte) (n : Nat) (cx : Fin 64) (cy : Fin 32) : Prop :=
  ∃ c < n, cx.val = x0 + c ∧ cy.val = y ∧ row.getLsbD (7 - c) = true

/-- The bit of a sprite's rows that lies at column cx, row cy when the sprite starts at (x0, y). -/
def RowsBit (x0 y : Nat) (rows : List Byte) (cx : Fin 64) (cy : Fin 32) : Prop :=
  ∃ r c : Nat, ∃ h : r < rows.length,
    c < 8 ∧ cy.val = y + r ∧ cx.val = x0 + c ∧ rows[r].getLsbD (7 - c) = true

theorem rowBit_succ (x0 y : Nat) (row : Byte) (n : Nat) (cx : Fin 64) (cy : Fin 32) :
    RowBit x0 y row (n + 1) cx cy ↔ RowBit x0 y row n cx cy ∨
      (cx.val = x0 + n ∧ cy.val = y ∧ row.getLsbD (7 - n) = true) := by
  constructor
  · rintro ⟨c, hc, h⟩
    rcases Nat.lt_succ_iff_lt_or_eq.1 hc with hc | rfl
    · exact .inl ⟨c, hc, h⟩
    · exact .inr h
  · rintro (⟨c, hc, h⟩ | h)
    · exact ⟨c, by omega, h⟩
    · exact ⟨n, by omega, h⟩

/-- One step of the loop over the columns of a row. -/
def drawBit (x0 y : Nat) (row : Byte) (acc : Display × Bool) (c : Nat) : Display × Bool :=
  if row.getLsbD (7 - c) then drawPixel (x0 + c) y acc else acc

open Classical in
/-- The first n columns of a row. -/
theorem drawBits_spec (x0 y : Nat) (row : Byte) (acc : Display × Bool) (n : Nat) :
    (∀ cx cy, ((List.range n).foldl (drawBit x0 y row) acc).1.cell cx cy =
      if RowBit x0 y row n cx cy then !acc.1.cell cx cy else acc.1.cell cx cy) ∧
    (((List.range n).foldl (drawBit x0 y row) acc).2 = true ↔
      acc.2 = true ∨ ∃ cx cy, RowBit x0 y row n cx cy ∧ acc.1.cell cx cy = true) := by
  induction n with
  | zero => simp [RowBit]
  | succ n ih =>
    simp only [List.range_succ, List.foldl_append, List.foldl_cons, List.foldl_nil]
    obtain ⟨cells, hit⟩ := ih
    generalize (List.range n).foldl (drawBit x0 y row) acc = r at *
    have fresh : ∀ cx cy, cx.val = x0 + n → ¬ RowBit x0 y row n cx cy := by
      rintro cx cy h ⟨c, hc, h', -⟩
      omega
    unfold drawBit
    by_cases hb : row.getLsbD (7 - n) = true
    · rw [if_pos hb]
      constructor
      · intro cx cy
        rw [drawPixel_cell, cells]
        by_cases h : cx.val = x0 + n ∧ cy.val = y
        · rw [if_pos h, if_neg (fresh cx cy h.1), if_pos ((rowBit_succ ..).2 (.inr ⟨h.1, h.2, hb⟩))]
        · rw [if_neg h]
          congr 1
          rw [rowBit_succ, eq_iff_iff]
          exact ⟨.inl, fun q => q.resolve_right fun q => h ⟨q.1, q.2.1⟩⟩
      · rw [drawPixel_hit, hit]
        constructor
        · rintro ((h | ⟨cx, cy, h, h2⟩) | ⟨cx, cy, hx, hy, h⟩)
          · exact .inl h
          · exact .inr ⟨cx, cy, (rowBit_succ ..).2 (.inl h), h2⟩
          · rw [cells, if_neg (fresh cx cy hx)] at h
            exact .inr ⟨cx, cy, (rowBit_succ ..).2 (.inr ⟨hx, hy, hb⟩), h⟩
        · rintro (h | ⟨cx, cy, h, h2⟩)
          · exact .inl (.inl h)
          · rcases (rowBit_succ ..).1 h with h | ⟨hx, hy, -⟩
            · exact .inl (.inr ⟨cx, cy, h, h2⟩)
            · exact .inr ⟨cx, cy, hx, hy, by rw [cells, if_neg (fresh cx cy hx)]; exact h2⟩
    · rw [if_neg hb]
      have e : ∀ cx cy, RowBit x0 y row (n + 1) cx cy ↔ RowBit x0 y row n cx cy := fun cx cy => by
        rw [rowBit_succ]
        exact ⟨fun q => q.resolve_right fun q => hb q.2.2, .inl⟩
      simp only [e]
      exact ⟨cells, hit⟩

theorem drawRow_eq (x0 y : Nat) (row : Byte) (acc : Display × Bool) :
    drawRow x0 y row acc = (List.range 8).foldl (drawBit x0 y row) acc := rfl

theorem rowsBit_cons (x0 y : Nat) (row : Byte) (rows : List Byte) (cx : Fin 64) (cy : Fin 32) :
    RowsBit x0 y (row :: rows) cx cy ↔ RowBit x0 y row 8 cx cy ∨ RowsBit x0 (y + 1) rows cx cy := by
  constructor
  · rintro ⟨r, c, hr, hc, hy, hx, hb⟩
    cases r with
    | zero => exact .inl ⟨c, hc, hx, hy, hb⟩
    | succ r => exact .inr ⟨r, c, by simpa using hr, hc, by omega, hx, by simpa using hb⟩
  · rintro (⟨c, hc, hx, hy, hb⟩ | ⟨r, c, hr, hc, hy, hx, hb⟩)
    · exact ⟨0, c, by simp, hc, hy, hx, hb⟩
    · exact ⟨r + 1, c, by simpa using hr, hc, by omega, hx, by simpa using hb⟩

open Classical in
/-- The whole loop: the cells under a sprite bit flip, no other cell changes, and the collision is set exactly
when one of them was on. -/
theorem drawRows_spec (x0 : Nat) (rows : List Byte) (y : Nat) (acc : Display × Bool) :
    (∀ cx cy, (drawRows x0 y rows acc).1.cell cx cy =
      if RowsBit x0 y rows cx cy then !acc.1.cell cx cy else acc.1.cell cx cy) ∧
    ((drawRows x0 y rows acc).2 = true ↔
      acc.2 = true ∨ ∃ cx cy, RowsBit x0 y rows cx cy ∧ acc.1.cell cx cy = true) := by
  induction rows generalizing y acc with
  | nil => simp [drawRows, RowsBit]
  | cons row rows ih =>
    obtain ⟨cells, hit⟩ := ih (y + 1) (drawRow x0 y row acc)
    obtain ⟨rowCells, rowHit⟩ := drawBits_spec x0 y row acc 8
    rw [← drawRow_eq] at rowCells rowHit
    have apart : ∀ cx cy, RowBit x0 y row 8 cx cy → ¬ RowsBit x0 (y + 1) rows cx cy := by
      rintro cx cy ⟨c, -, -, hy, -⟩ ⟨r, c', -, -, hy', -⟩
      omega
    constructor
    · intro cx cy
      rw [drawRows, cells, rowCells]
      by_cases h : RowBit x0 y row 8 cx cy
      · rw [if_neg (apart _ _ h), if_pos h, if_pos ((rowsBit_cons ..).2 (.inl h))]
      · rw [if_neg h]
        congr 1
        rw [rowsBit_cons, eq_iff_iff]
        exact ⟨.inr, fun q => q.resolve_left h⟩
    · rw [drawRows, hit, rowHit]
      constructor
      · rintro ((h | ⟨cx, cy, h, h2⟩) | ⟨cx, cy, h, h2⟩)
        · exact .inl h
        · exact .inr ⟨cx, cy, (rowsBit_cons ..).2 (.inl h), h2⟩
        · rw [rowCells, if_neg fun q => apart _ _ q h] at h2
          exact .inr ⟨cx, cy, (rowsBit_cons ..).2 (.inr h), h2⟩
      · rintro (h | ⟨cx, cy, h, h2⟩)
        · exact .inl (.inl h)
        · rcases (rowsBit_cons ..).1 h with h | h
          · exact .inl (.inr ⟨cx, cy, h, h2⟩)
          · exact .inr ⟨cx, cy, h, by rw [rowCells, if_neg fun q => apart _ _ q h]; exact h2⟩

end Sys2Proof.Machine
end

