-- ==== Sys2Proof/Laws/Memory.lean ====
section
/-! SUPPORT. The laws of memory (spec/20_memory.md R34, R35, R48): a read after a write to the same byte gives
the byte written, every other byte is left alone, and every operation keeps the canonical form. -/

namespace Sys2Proof.Machine

/-- An address that no entry lists reads as its reset contents. -/
theorem Memory.read_of_forall_ne {m : Memory} {a : Nat} (h : ∀ c ∈ m, c.1 ≠ a) :
    m.read a = resetByte a := by
  induction m with
  | nil => rfl
  | cons c rest ih =>
    have hc : c.1 ≠ a := h c (by simp)
    have hr : ∀ d ∈ rest, d.1 ≠ a := fun d hd => h d (by simp [hd])
    simp [Memory.read, hc, ih hr]

/-- An entry of a canonical memory is what its address reads as. -/
theorem Memory.read_of_mem {m : Memory} (h : m.Pairwise (fun c d => c.1 < d.1)) {a : Nat} {v : Byte}
    (hm : (a, v) ∈ m) : m.read a = v := by
  induction m with
  | nil => simp at hm
  | cons c rest ih =>
    rw [List.pairwise_cons] at h
    rcases List.mem_cons.1 hm with rfl | hr
    · simp [Memory.read]
    · have := h.1 _ hr
      have hne : c.1 ≠ a := by simp at this; omega
      simp [Memory.read, hne, ih h.2 hr]

/-- A write leaves every other byte alone. -/
theorem Memory.read_write_ne (m : Memory) {a b : Nat} (v : Byte) (h : b ≠ a) :
    (m.write a v).read b = m.read b := by
  induction m with
  | nil =>
    unfold Memory.write
    split <;> simp [Memory.read, Ne.symm h]
  | cons c rest ih =>
    obtain ⟨c, w⟩ := c
    unfold Memory.write
    split
    · split <;> simp [Memory.read, Ne.symm h]
    · split
      · subst a; split <;> simp [Memory.read, Ne.symm h]
      · simp [Memory.read, ih]

/-- A read gives the byte last written there. -/
theorem Memory.read_write_self {m : Memory} (hm : m.Pairwise (fun c d => c.1 < d.1)) (a : Nat) (v : Byte) :
    (m.write a v).read a = v := by
  induction m with
  | nil =>
    unfold Memory.write
    split <;> simp_all [Memory.read]
  | cons c rest ih =>
    obtain ⟨c, w⟩ := c
    rw [List.pairwise_cons] at hm
    have above : ∀ d ∈ rest, c < d.1 := fun d hd => hm.1 d hd
    unfold Memory.write
    split
    · rename_i hac
      split
      · rename_i hv
        rw [hv]
        apply Memory.read_of_forall_ne
        intro d hd
        rcases List.mem_cons.1 hd with rfl | hr
        · simp; omega
        · have := above d hr; omega
      · simp [Memory.read]
    · split
      · subst a
        split
        · rename_i hv
          rw [hv]
          exact Memory.read_of_forall_ne fun d hd => by have := above d hd; omega
        · simp [Memory.read]
      · rename_i hne
        simp [Memory.read, Ne.symm hne, ih hm.2]

theorem Memory.read_write {m : Memory} (hm : m.wf) (a b : Nat) (v : Byte) :
    (m.write a v).read b = if b = a then v else m.read b := by
  by_cases h : b = a
  · simp [h, Memory.read_write_self hm.1]
  · simp [h, Memory.read_write_ne]

/-- The entries after a write are the old ones and the byte written. -/
theorem Memory.mem_write {m : Memory} {a : Nat} {v : Byte} {c : Host.Cell} (h : c ∈ m.write a v) :
    c ∈ m ∨ (c = (a, v) ∧ v ≠ resetByte a) := by
  induction m with
  | nil =>
    unfold Memory.write at h
    split at h <;> simp_all
  | cons d rest ih =>
    obtain ⟨d, w⟩ := d
    unfold Memory.write at h
    split at h
    · split at h
      · exact .inl h
      · rcases List.mem_cons.1 h with h | h
        · exact .inr ⟨h, by assumption⟩
        · exact .inl h
    · split at h
      · split at h
        · exact .inl (List.mem_cons_of_mem _ h)
        · rcases List.mem_cons.1 h with h | h
          · exact .inr ⟨h, by assumption⟩
          · exact .inl (List.mem_cons_of_mem _ h)
      · rcases List.mem_cons.1 h with h | h
        · exact .inl (by simp [h])
        · exact (ih h).imp_left (List.mem_cons_of_mem _)

theorem Memory.rising_write {m : Memory} (hm : m.Pairwise (fun c d => c.1 < d.1)) (a : Nat) (v : Byte) :
    (m.write a v).Pairwise (fun c d => c.1 < d.1) := by
  induction m with
  | nil =>
    unfold Memory.write
    split <;> simp
  | cons c rest ih =>
    obtain ⟨c, w⟩ := c
    have hm' := List.pairwise_cons.1 hm
    unfold Memory.write
    split
    · rename_i hac
      split
      · exact hm
      · refine List.pairwise_cons.2 ⟨fun d hd => ?_, hm⟩
        rcases List.mem_cons.1 hd with rfl | hr
        · exact hac
        · exact Nat.lt_trans hac (hm'.1 d hr)
    · split
      · rename_i hac
        split
        · exact hm'.2
        · exact List.pairwise_cons.2 ⟨fun d hd => hac ▸ hm'.1 d hd, hm'.2⟩
      · refine List.pairwise_cons.2 ⟨fun d hd => ?_, ih hm'.2⟩
        rcases Memory.mem_write hd with hr | ⟨rfl, -⟩
        · exact hm'.1 d hr
        · simp; omega

/-- A write inside the address space keeps the canonical form. -/
theorem Memory.wf_write {m : Memory} (hm : m.wf) {a : Nat} (ha : a < Config.memSize) (v : Byte) :
    (m.write a v).wf := by
  refine ⟨Memory.rising_write hm.1 a v, fun c hc => ?_⟩
  rcases Memory.mem_write hc with h | ⟨rfl, hv⟩
  · exact hm.2 c h
  · exact ⟨ha, hv⟩

theorem Memory.wf_nil : Memory.wf [] := by simp [Memory.wf]

/-- A run of writes inside the address space keeps the canonical form. -/
theorem Memory.wf_writeBytes {m : Memory} (hm : m.wf) (a : Nat) (bs : List Byte)
    (h : a + bs.length ≤ Config.memSize) : (m.writeBytes a bs).wf := by
  induction bs generalizing m a with
  | nil => exact hm
  | cons b bs ih =>
    simp only [List.length_cons] at h
    exact ih (Memory.wf_write hm (by omega) b) (a + 1) (by omega)

/-- Bytes outside the written range are left alone. -/
theorem Memory.read_writeBytes_outside (m : Memory) (a b : Nat) (bs : List Byte)
    (h : b < a ∨ a + bs.length ≤ b) : (m.writeBytes a bs).read b = m.read b := by
  induction bs generalizing m a with
  | nil => rfl
  | cons c bs ih =>
    simp only [List.length_cons] at h
    rw [Memory.writeBytes, ih _ _ (by omega), Memory.read_write_ne _ _ (by omega)]

/-- Byte j of the list is what address a + j reads as afterwards. -/
theorem Memory.read_writeBytes_inside {m : Memory} (hm : m.Pairwise (fun c d => c.1 < d.1)) (a : Nat)
    (bs : List Byte) {j : Nat} (hj : j < bs.length) : (m.writeBytes a bs).read (a + j) = bs[j] := by
  induction bs generalizing m a j with
  | nil => simp at hj
  | cons c bs ih =>
    rw [Memory.writeBytes]
    cases j with
    | zero =>
      rw [Memory.read_writeBytes_outside _ _ _ _ (by omega)]
      exact Memory.read_write_self hm a c
    | succ j =>
      have := ih (Memory.rising_write hm a c) (a + 1) (j := j) (by simpa using hj)
      simpa [Nat.add_assoc, Nat.add_comm 1 j] using this

@[simp] theorem Memory.length_readBytes (m : Memory) (a n : Nat) : (m.readBytes a n).length = n := by
  simp [Memory.readBytes]

theorem Memory.getElem_readBytes (m : Memory) (a n : Nat) {j : Nat} (hj : j < (m.readBytes a n).length) :
    (m.readBytes a n)[j] = m.read (a + j) := by
  simp [Memory.readBytes]

end Sys2Proof.Machine
end

