-- ==== Sys2Proof/Laws/State.lean ====
section
/-! SUPPORT. What each update of the state does to each field: one lemma for each field and update, and what a
general register reads as after it. No later proof unfolds a record update. -/

namespace Sys2Proof.Machine

/-! ## `State.setV` -/

@[simp] theorem State.setV_mem (s : State) (x : Nibble) (b : Byte) : (s.setV x b).mem = s.mem := rfl
@[simp] theorem State.setV_v (s : State) (x : Nibble) (b : Byte) : (s.setV x b).v = s.v.set x.toNat b x.isLt := rfl
@[simp] theorem State.setV_i (s : State) (x : Nibble) (b : Byte) : (s.setV x b).i = s.i := rfl
@[simp] theorem State.setV_pc (s : State) (x : Nibble) (b : Byte) : (s.setV x b).pc = s.pc := rfl
@[simp] theorem State.setV_stack (s : State) (x : Nibble) (b : Byte) : (s.setV x b).stack = s.stack := rfl
@[simp] theorem State.setV_sp (s : State) (x : Nibble) (b : Byte) : (s.setV x b).sp = s.sp := rfl
@[simp] theorem State.setV_dt (s : State) (x : Nibble) (b : Byte) : (s.setV x b).dt = s.dt := rfl
@[simp] theorem State.setV_st (s : State) (x : Nibble) (b : Byte) : (s.setV x b).st = s.st := rfl
@[simp] theorem State.setV_display (s : State) (x : Nibble) (b : Byte) : (s.setV x b).display = s.display := rfl
@[simp] theorem State.setV_keys (s : State) (x : Nibble) (b : Byte) : (s.setV x b).keys = s.keys := rfl
@[simp] theorem State.setV_run (s : State) (x : Nibble) (b : Byte) : (s.setV x b).run = s.run := rfl
@[simp] theorem State.setV_draws (s : State) (x : Nibble) (b : Byte) : (s.setV x b).draws = s.draws := rfl

/-! ## `State.setI` -/

@[simp] theorem State.setI_mem (s : State) (w : Word) : (s.setI w).mem = s.mem := rfl
@[simp] theorem State.setI_v (s : State) (w : Word) : (s.setI w).v = s.v := rfl
@[simp] theorem State.setI_i (s : State) (w : Word) : (s.setI w).i = w := rfl
@[simp] theorem State.setI_pc (s : State) (w : Word) : (s.setI w).pc = s.pc := rfl
@[simp] theorem State.setI_stack (s : State) (w : Word) : (s.setI w).stack = s.stack := rfl
@[simp] theorem State.setI_sp (s : State) (w : Word) : (s.setI w).sp = s.sp := rfl
@[simp] theorem State.setI_dt (s : State) (w : Word) : (s.setI w).dt = s.dt := rfl
@[simp] theorem State.setI_st (s : State) (w : Word) : (s.setI w).st = s.st := rfl
@[simp] theorem State.setI_display (s : State) (w : Word) : (s.setI w).display = s.display := rfl
@[simp] theorem State.setI_keys (s : State) (w : Word) : (s.setI w).keys = s.keys := rfl
@[simp] theorem State.setI_run (s : State) (w : Word) : (s.setI w).run = s.run := rfl
@[simp] theorem State.setI_draws (s : State) (w : Word) : (s.setI w).draws = s.draws := rfl
@[simp] theorem State.getV_setI (s : State) (w : Word) (r : Nibble) : (s.setI w).getV r = s.getV r := rfl

/-! ## `State.setPc` -/

@[simp] theorem State.setPc_mem (s : State) (w : Word) : (s.setPc w).mem = s.mem := rfl
@[simp] theorem State.setPc_v (s : State) (w : Word) : (s.setPc w).v = s.v := rfl
@[simp] theorem State.setPc_i (s : State) (w : Word) : (s.setPc w).i = s.i := rfl
@[simp] theorem State.setPc_pc (s : State) (w : Word) : (s.setPc w).pc = w := rfl
@[simp] theorem State.setPc_stack (s : State) (w : Word) : (s.setPc w).stack = s.stack := rfl
@[simp] theorem State.setPc_sp (s : State) (w : Word) : (s.setPc w).sp = s.sp := rfl
@[simp] theorem State.setPc_dt (s : State) (w : Word) : (s.setPc w).dt = s.dt := rfl
@[simp] theorem State.setPc_st (s : State) (w : Word) : (s.setPc w).st = s.st := rfl
@[simp] theorem State.setPc_display (s : State) (w : Word) : (s.setPc w).display = s.display := rfl
@[simp] theorem State.setPc_keys (s : State) (w : Word) : (s.setPc w).keys = s.keys := rfl
@[simp] theorem State.setPc_run (s : State) (w : Word) : (s.setPc w).run = s.run := rfl
@[simp] theorem State.setPc_draws (s : State) (w : Word) : (s.setPc w).draws = s.draws := rfl
@[simp] theorem State.getV_setPc (s : State) (w : Word) (r : Nibble) : (s.setPc w).getV r = s.getV r := rfl

/-! ## `State.setMem` -/

@[simp] theorem State.setMem_mem (s : State) (m : Memory) : (s.setMem m).mem = m := rfl
@[simp] theorem State.setMem_v (s : State) (m : Memory) : (s.setMem m).v = s.v := rfl
@[simp] theorem State.setMem_i (s : State) (m : Memory) : (s.setMem m).i = s.i := rfl
@[simp] theorem State.setMem_pc (s : State) (m : Memory) : (s.setMem m).pc = s.pc := rfl
@[simp] theorem State.setMem_stack (s : State) (m : Memory) : (s.setMem m).stack = s.stack := rfl
@[simp] theorem State.setMem_sp (s : State) (m : Memory) : (s.setMem m).sp = s.sp := rfl
@[simp] theorem State.setMem_dt (s : State) (m : Memory) : (s.setMem m).dt = s.dt := rfl
@[simp] theorem State.setMem_st (s : State) (m : Memory) : (s.setMem m).st = s.st := rfl
@[simp] theorem State.setMem_display (s : State) (m : Memory) : (s.setMem m).display = s.display := rfl
@[simp] theorem State.setMem_keys (s : State) (m : Memory) : (s.setMem m).keys = s.keys := rfl
@[simp] theorem State.setMem_run (s : State) (m : Memory) : (s.setMem m).run = s.run := rfl
@[simp] theorem State.setMem_draws (s : State) (m : Memory) : (s.setMem m).draws = s.draws := rfl
@[simp] theorem State.getV_setMem (s : State) (m : Memory) (r : Nibble) : (s.setMem m).getV r = s.getV r := rfl

/-! ## `State.setDt` -/

@[simp] theorem State.setDt_mem (s : State) (b : Byte) : (s.setDt b).mem = s.mem := rfl
@[simp] theorem State.setDt_v (s : State) (b : Byte) : (s.setDt b).v = s.v := rfl
@[simp] theorem State.setDt_i (s : State) (b : Byte) : (s.setDt b).i = s.i := rfl
@[simp] theorem State.setDt_pc (s : State) (b : Byte) : (s.setDt b).pc = s.pc := rfl
@[simp] theorem State.setDt_stack (s : State) (b : Byte) : (s.setDt b).stack = s.stack := rfl
@[simp] theorem State.setDt_sp (s : State) (b : Byte) : (s.setDt b).sp = s.sp := rfl
@[simp] theorem State.setDt_dt (s : State) (b : Byte) : (s.setDt b).dt = b := rfl
@[simp] theorem State.setDt_st (s : State) (b : Byte) : (s.setDt b).st = s.st := rfl
@[simp] theorem State.setDt_display (s : State) (b : Byte) : (s.setDt b).display = s.display := rfl
@[simp] theorem State.setDt_keys (s : State) (b : Byte) : (s.setDt b).keys = s.keys := rfl
@[simp] theorem State.setDt_run (s : State) (b : Byte) : (s.setDt b).run = s.run := rfl
@[simp] theorem State.setDt_draws (s : State) (b : Byte) : (s.setDt b).draws = s.draws := rfl
@[simp] theorem State.getV_setDt (s : State) (b : Byte) (r : Nibble) : (s.setDt b).getV r = s.getV r := rfl

/-! ## `State.setSt` -/

@[simp] theorem State.setSt_mem (s : State) (b : Byte) : (s.setSt b).mem = s.mem := rfl
@[simp] theorem State.setSt_v (s : State) (b : Byte) : (s.setSt b).v = s.v := rfl
@[simp] theorem State.setSt_i (s : State) (b : Byte) : (s.setSt b).i = s.i := rfl
@[simp] theorem State.setSt_pc (s : State) (b : Byte) : (s.setSt b).pc = s.pc := rfl
@[simp] theorem State.setSt_stack (s : State) (b : Byte) : (s.setSt b).stack = s.stack := rfl
@[simp] theorem State.setSt_sp (s : State) (b : Byte) : (s.setSt b).sp = s.sp := rfl
@[simp] theorem State.setSt_dt (s : State) (b : Byte) : (s.setSt b).dt = s.dt := rfl
@[simp] theorem State.setSt_st (s : State) (b : Byte) : (s.setSt b).st = b := rfl
@[simp] theorem State.setSt_display (s : State) (b : Byte) : (s.setSt b).display = s.display := rfl
@[simp] theorem State.setSt_keys (s : State) (b : Byte) : (s.setSt b).keys = s.keys := rfl
@[simp] theorem State.setSt_run (s : State) (b : Byte) : (s.setSt b).run = s.run := rfl
@[simp] theorem State.setSt_draws (s : State) (b : Byte) : (s.setSt b).draws = s.draws := rfl
@[simp] theorem State.getV_setSt (s : State) (b : Byte) (r : Nibble) : (s.setSt b).getV r = s.getV r := rfl

/-! ## `State.setDisplay` -/

@[simp] theorem State.setDisplay_mem (s : State) (d : Display) : (s.setDisplay d).mem = s.mem := rfl
@[simp] theorem State.setDisplay_v (s : State) (d : Display) : (s.setDisplay d).v = s.v := rfl
@[simp] theorem State.setDisplay_i (s : State) (d : Display) : (s.setDisplay d).i = s.i := rfl
@[simp] theorem State.setDisplay_pc (s : State) (d : Display) : (s.setDisplay d).pc = s.pc := rfl
@[simp] theorem State.setDisplay_stack (s : State) (d : Display) : (s.setDisplay d).stack = s.stack := rfl
@[simp] theorem State.setDisplay_sp (s : State) (d : Display) : (s.setDisplay d).sp = s.sp := rfl
@[simp] theorem State.setDisplay_dt (s : State) (d : Display) : (s.setDisplay d).dt = s.dt := rfl
@[simp] theorem State.setDisplay_st (s : State) (d : Display) : (s.setDisplay d).st = s.st := rfl
@[simp] theorem State.setDisplay_display (s : State) (d : Display) : (s.setDisplay d).display = d := rfl
@[simp] theorem State.setDisplay_keys (s : State) (d : Display) : (s.setDisplay d).keys = s.keys := rfl
@[simp] theorem State.setDisplay_run (s : State) (d : Display) : (s.setDisplay d).run = s.run := rfl
@[simp] theorem State.setDisplay_draws (s : State) (d : Display) : (s.setDisplay d).draws = s.draws := rfl
@[simp] theorem State.getV_setDisplay (s : State) (d : Display) (r : Nibble) : (s.setDisplay d).getV r = s.getV r := rfl

/-! ## `State.setKey` -/

@[simp] theorem State.setKey_mem (s : State) (k : Fin 16) (p : Bool) : (s.setKey k p).mem = s.mem := rfl
@[simp] theorem State.setKey_v (s : State) (k : Fin 16) (p : Bool) : (s.setKey k p).v = s.v := rfl
@[simp] theorem State.setKey_i (s : State) (k : Fin 16) (p : Bool) : (s.setKey k p).i = s.i := rfl
@[simp] theorem State.setKey_pc (s : State) (k : Fin 16) (p : Bool) : (s.setKey k p).pc = s.pc := rfl
@[simp] theorem State.setKey_stack (s : State) (k : Fin 16) (p : Bool) : (s.setKey k p).stack = s.stack := rfl
@[simp] theorem State.setKey_sp (s : State) (k : Fin 16) (p : Bool) : (s.setKey k p).sp = s.sp := rfl
@[simp] theorem State.setKey_dt (s : State) (k : Fin 16) (p : Bool) : (s.setKey k p).dt = s.dt := rfl
@[simp] theorem State.setKey_st (s : State) (k : Fin 16) (p : Bool) : (s.setKey k p).st = s.st := rfl
@[simp] theorem State.setKey_display (s : State) (k : Fin 16) (p : Bool) : (s.setKey k p).display = s.display := rfl
@[simp] theorem State.setKey_keys (s : State) (k : Fin 16) (p : Bool) : (s.setKey k p).keys = s.keys.set k p := rfl
@[simp] theorem State.setKey_run (s : State) (k : Fin 16) (p : Bool) : (s.setKey k p).run = s.run := rfl
@[simp] theorem State.setKey_draws (s : State) (k : Fin 16) (p : Bool) : (s.setKey k p).draws = s.draws := rfl
@[simp] theorem State.getV_setKey (s : State) (k : Fin 16) (p : Bool) (r : Nibble) : (s.setKey k p).getV r = s.getV r := rfl

/-! ## `State.setRun` -/

@[simp] theorem State.setRun_mem (s : State) (q : RunState) : (s.setRun q).mem = s.mem := rfl
@[simp] theorem State.setRun_v (s : State) (q : RunState) : (s.setRun q).v = s.v := rfl
@[simp] theorem State.setRun_i (s : State) (q : RunState) : (s.setRun q).i = s.i := rfl
@[simp] theorem State.setRun_pc (s : State) (q : RunState) : (s.setRun q).pc = s.pc := rfl
@[simp] theorem State.setRun_stack (s : State) (q : RunState) : (s.setRun q).stack = s.stack := rfl
@[simp] theorem State.setRun_sp (s : State) (q : RunState) : (s.setRun q).sp = s.sp := rfl
@[simp] theorem State.setRun_dt (s : State) (q : RunState) : (s.setRun q).dt = s.dt := rfl
@[simp] theorem State.setRun_st (s : State) (q : RunState) : (s.setRun q).st = s.st := rfl
@[simp] theorem State.setRun_display (s : State) (q : RunState) : (s.setRun q).display = s.display := rfl
@[simp] theorem State.setRun_keys (s : State) (q : RunState) : (s.setRun q).keys = s.keys := rfl
@[simp] theorem State.setRun_run (s : State) (q : RunState) : (s.setRun q).run = q := rfl
@[simp] theorem State.setRun_draws (s : State) (q : RunState) : (s.setRun q).draws = s.draws := rfl
@[simp] theorem State.getV_setRun (s : State) (q : RunState) (r : Nibble) : (s.setRun q).getV r = s.getV r := rfl

/-! ## `State.nextDraw` -/

@[simp] theorem State.nextDraw_mem (s : State) : (s.nextDraw).mem = s.mem := rfl
@[simp] theorem State.nextDraw_v (s : State) : (s.nextDraw).v = s.v := rfl
@[simp] theorem State.nextDraw_i (s : State) : (s.nextDraw).i = s.i := rfl
@[simp] theorem State.nextDraw_pc (s : State) : (s.nextDraw).pc = s.pc := rfl
@[simp] theorem State.nextDraw_stack (s : State) : (s.nextDraw).stack = s.stack := rfl
@[simp] theorem State.nextDraw_sp (s : State) : (s.nextDraw).sp = s.sp := rfl
@[simp] theorem State.nextDraw_dt (s : State) : (s.nextDraw).dt = s.dt := rfl
@[simp] theorem State.nextDraw_st (s : State) : (s.nextDraw).st = s.st := rfl
@[simp] theorem State.nextDraw_display (s : State) : (s.nextDraw).display = s.display := rfl
@[simp] theorem State.nextDraw_keys (s : State) : (s.nextDraw).keys = s.keys := rfl
@[simp] theorem State.nextDraw_run (s : State) : (s.nextDraw).run = s.run := rfl
@[simp] theorem State.nextDraw_draws (s : State) : (s.nextDraw).draws = s.draws + 1 := rfl
@[simp] theorem State.getV_nextDraw (s : State) (r : Nibble) : (s.nextDraw).getV r = s.getV r := rfl

/-! ## `State.setRegs` -/

@[simp] theorem State.setRegs_mem (s : State) (bs : List Byte) : (s.setRegs bs).mem = s.mem := rfl
@[simp] theorem State.setRegs_v (s : State) (bs : List Byte) : (s.setRegs bs).v = Vector.ofFn fun j : Fin 16 => bs.getD j.val s.v[j.val] := rfl
@[simp] theorem State.setRegs_i (s : State) (bs : List Byte) : (s.setRegs bs).i = s.i := rfl
@[simp] theorem State.setRegs_pc (s : State) (bs : List Byte) : (s.setRegs bs).pc = s.pc := rfl
@[simp] theorem State.setRegs_stack (s : State) (bs : List Byte) : (s.setRegs bs).stack = s.stack := rfl
@[simp] theorem State.setRegs_sp (s : State) (bs : List Byte) : (s.setRegs bs).sp = s.sp := rfl
@[simp] theorem State.setRegs_dt (s : State) (bs : List Byte) : (s.setRegs bs).dt = s.dt := rfl
@[simp] theorem State.setRegs_st (s : State) (bs : List Byte) : (s.setRegs bs).st = s.st := rfl
@[simp] theorem State.setRegs_display (s : State) (bs : List Byte) : (s.setRegs bs).display = s.display := rfl
@[simp] theorem State.setRegs_keys (s : State) (bs : List Byte) : (s.setRegs bs).keys = s.keys := rfl
@[simp] theorem State.setRegs_run (s : State) (bs : List Byte) : (s.setRegs bs).run = s.run := rfl
@[simp] theorem State.setRegs_draws (s : State) (bs : List Byte) : (s.setRegs bs).draws = s.draws := rfl

/-! ## Reading a general register after a write of V -/

theorem State.getV_setV (s : State) (x r : Nibble) (b : Byte) :
    (s.setV x b).getV r = if r = x then b else s.getV r := by
  by_cases h : r = x
  · subst h; simp [State.getV]
  · have hn : x.toNat ≠ r.toNat := fun e => h (BitVec.eq_of_toNat_eq e.symm)
    simp [State.getV, h, Vector.getElem_set_ne _ _ hn]

@[simp] theorem State.getV_setV_self (s : State) (x : Nibble) (b : Byte) : (s.setV x b).getV x = b := by
  simp [State.getV_setV]

theorem State.getV_setV_ne (s : State) {x r : Nibble} (b : Byte) (h : r ≠ x) :
    (s.setV x b).getV r = s.getV r := by
  simp [State.getV_setV, h]

/-- FX65's write: the registers inside the list are replaced, the others keep their values. -/
theorem State.getV_setRegs (s : State) (bs : List Byte) (r : Nibble) :
    (s.setRegs bs).getV r = bs.getD r.toNat (s.getV r) := by
  simp [State.getV]

/-- R96: the flag is written last, so it stays when the destination is VF. -/
theorem State.getV_setVFlag (s : State) (x r : Nibble) (p : Byte × Bool) :
    (s.setVFlag x p).getV r = if r = 0xF then flagByte p.2 else if r = x then p.1 else s.getV r := by
  simp [State.setVFlag, State.getV_setV]

/-- The flag-writing update changes V alone. -/
theorem State.setVFlag_eq (s : State) (x : Nibble) (p : Byte × Bool) :
    s.setVFlag x p = { s with v := (s.setVFlag x p).v } := rfl

end Sys2Proof.Machine
end

