-- ==== Sys2Proof/Laws/Ops.lean ====
section
/-! SUPPORT. One lemma for each shared operation that says all it can do: bounds and accesses, raising, the
advance, the stack, the key operands and the fetch. -/

namespace Sys2Proof.Machine

/-! ## Accesses (R34, R35) -/

theorem checkAccess_eq_ok {a n : Nat} (h : a + n - 1 ≤ 0xFFF) : checkAccess a n = .ok () := by
  simp [checkAccess, Nat.not_lt.2 h]

theorem checkAccess_eq_error {a n : Nat} (h : 0xFFF < a + n - 1) :
    checkAccess a n = .error (.memoryOutOfBounds (max a 0x1000)) := by
  simp [checkAccess, h]

/-- A read gives the bytes of the whole range when it lies inside memory, and otherwise the first address above. -/
theorem memRead_eq (m : Memory) (a n : Nat) :
    memRead m a n = if a + n - 1 > 0xFFF then .error (.memoryOutOfBounds (max a 0x1000))
      else .ok (m.readBytes a n) := by
  unfold memRead checkAccess
  split <;> rfl

theorem memReadWord_eq (m : Memory) (a : Nat) :
    memReadWord m a = if a > 0xFFE then .error (.memoryOutOfBounds (max a 0x1000))
      else .ok (m.wordAt a) := by
  unfold memReadWord checkAccess
  have : (a + 2 - 1 > 0xFFF) ↔ (a > 0xFFE) := by omega
  simp only [this]
  split <;> rfl

/-- A write writes the whole list when its range lies inside memory, and otherwise nothing. -/
theorem memWrite_eq (m : Memory) (a : Nat) (bs : List Byte) :
    memWrite m a bs = if a + bs.length - 1 > 0xFFF then .error (.memoryOutOfBounds (max a 0x1000))
      else .ok (m.writeBytes a bs) := by
  unfold memWrite checkAccess
  split <;> rfl

/-! ## Raising and ending -/

theorem raise_eq (f : Fault) (s : State) : raise f s = .next (s.setRun (.halted f)) := rfl

@[simp] theorem orRaise_ok {α : Type} (s : State) (a : α) (k : α → Host.Outcome State Fault Refusal) :
    orRaise s (.ok a) k = k a := rfl

@[simp] theorem orRaise_error {α : Type} (s : State) (f : Fault) (k : α → Host.Outcome State Fault Refusal) :
    orRaise s (.error f) k = raise f s := rfl

/-- An access followed by the rest of an instruction answers a next state if the rest does. -/
theorem orRaise_next {α : Type} {s t : State} {r : Except Fault α}
    {k : α → Host.Outcome State Fault Refusal} (h : orRaise s r k = .next t) :
    (∃ f, r = .error f ∧ t = s.setRun (.halted f)) ∨ (∃ a, r = .ok a ∧ k a = .next t) := by
  cases r with
  | error f =>
    simp only [orRaise_error, raise_eq, Host.Outcome.next.injEq] at h
    exact .inl ⟨f, rfl, h.symm⟩
  | ok a => exact .inr ⟨a, rfl, h⟩

theorem finish_eq (n : NextPc) (s : State) : finish n s = .next (s.setPc (n.from s.pc)) := rfl

@[simp] theorem NextPc.from_default (pc : Word) : NextPc.default.from pc = u16 (pc.toNat + 2) := rfl
@[simp] theorem NextPc.from_skip (pc : Word) : NextPc.skip.from pc = u16 (pc.toNat + 4) := rfl
@[simp] theorem NextPc.from_target (t pc : Word) : (NextPc.target t).from pc = t := rfl

theorem skipIf_eq (c : Bool) (s : State) :
    skipIf c s = .next (s.setPc (u16 (s.pc.toNat + if c then 4 else 2))) := by
  cases c <;> rfl

/-! ## The stack (R23) -/

theorem State.push_of_lt (s : State) (w : Word) (h : s.sp.val < 16) :
    s.push w = some { s with stack := s.stack.set s.sp.val w, sp := ⟨s.sp.val + 1, by omega⟩ } := by
  simp [State.push, h]

theorem State.push_of_full (s : State) (w : Word) (h : s.sp = 16) : s.push w = none := by
  simp [State.push, h]

theorem State.pop_of_pos (s : State) (h : 0 < s.sp.val) :
    s.pop = some (s.stack[s.sp.val - 1]'(by omega), { s with sp := ⟨s.sp.val - 1, by omega⟩ }) := by
  simp [State.pop, h]

theorem State.pop_of_empty (s : State) (h : s.sp = 0) : s.pop = none := by
  simp [State.pop, h]

/-! ## Keys (R74, R143) -/

theorem keyPressed_of_lt (s : State) {k : Byte} (h : k.toNat < 16) :
    keyPressed k s = .ok s.keys[k.toNat] := by
  simp [keyPressed, h]

theorem keyPressed_of_ge (s : State) {k : Byte} (h : 16 ≤ k.toNat) :
    keyPressed k s = .error (.invalidKeyCode k) := by
  simp [keyPressed, Nat.not_lt.2 h]

theorem lowestPressed_eq_none (s : State) :
    lowestPressed s = none ↔ ∀ k : Fin 16, s.keys[k.val] = false := by
  simp [lowestPressed, List.find?_eq_none]

/-- The key found is pressed and no lower key is. -/
theorem lowestPressed_eq_some (s : State) (k : Fin 16) :
    lowestPressed s = some k ↔ s.keys[k.val] = true ∧ ∀ j : Fin 16, j < k → s.keys[j.val] = false := by
  unfold lowestPressed
  rw [List.find?_eq_some_iff_getElem]
  constructor
  · rintro ⟨hk, i, hi, rfl, hlow⟩
    refine ⟨hk, fun j hj => ?_⟩
    have hj' : j.val < i := by simpa [Fin.lt_def] using hj
    simpa using hlow j.val hj'
  · rintro ⟨hk, hlow⟩
    refine ⟨hk, k.val, by simp, by simp, fun j hj => ?_⟩
    have := hlow ⟨j, by omega⟩ (by simpa [Fin.lt_def] using hj)
    simpa using this

/-! ## Fetch and decode (R75) -/

/-- The fetch bound, then decode validity, then the instruction. -/
theorem fetchDecode_eq (s : State) :
    fetchDecode s = if s.pc.toNat > 0xFFE then .error (.memoryOutOfBounds (max s.pc.toNat 0x1000))
      else match decode (s.mem.wordAt s.pc.toNat) with
        | .instr i => .ok i
        | .invalid w => .error (.invalidOpcode w) := by
  unfold fetchDecode fetch
  rw [memReadWord_eq]
  by_cases h : s.pc.toNat > 0xFFE <;>
    cases hd : decode (s.mem.wordAt s.pc.toNat) <;> simp [h, hd]

end Sys2Proof.Machine
end

