-- ==== Sys2Proof/Laws/HostOps.lean ====
section
/-! SUPPORT. Small laws of the host operations: sessions, the step result and the timers' decay. -/

namespace Sys2Proof.Machine

@[simp] theorem session_nil (s : State) : session [] s = s := rfl

@[simp] theorem session_cons (op : HostOp) (ops : List HostOp) (s : State) :
    session (op :: ops) s = session ops (hostOp op s).1 := rfl

theorem session_append (ops ops' : List HostOp) (s : State) :
    session (ops ++ ops') s = session ops' (session ops s) := by
  simp [session]

@[simp] theorem scheduled_zero (ops : Schedule) (s : State) : scheduled ops 0 s = s := rfl

theorem scheduled_succ (ops : Schedule) (n : Nat) (s : State) :
    scheduled ops (n + 1) s = (hostOp (ops n) (scheduled ops n s)).1 := by
  simp [scheduled, List.range_succ, session_append]

/-- The result of a step that answers a next state (R72). -/
theorem doStep_of_next {s t : State} (h : step s = .next t) : s.doStep = (t, .stepped (stepResult t)) := by
  simp [State.doStep, h]

theorem stepResult_of_halted {s : State} {f : Fault} (h : s.run = .halted f) :
    stepResult s = .failure f := by
  simp [stepResult, h]

theorem stepResult_of_not_halted {s : State} (h : ∀ f, s.run ≠ .halted f) : stepResult s = .success := by
  unfold stepResult
  split
  · rename_i f hf
    exact absurd hf (h f)
  · rfl

theorem decay_toNat (b : Byte) : (decay b).toNat = b.toNat - 1 := by
  rw [decay, u8_toNat]
  omega

end Sys2Proof.Machine
end

