-- ==== Sys2Proof/Laws/Operands.lean ====
section
/-! SUPPORT. What the operand forms give: the register list of FX55 and FX65, the sprite rows and the BCD digits. -/

namespace Sys2Proof.Machine

@[simp] theorem State.length_regsUpTo (s : State) (x : Nibble) : (s.regsUpTo x).length = x.toNat + 1 := by
  simp [State.regsUpTo]
  omega

/-- Entry r of the list V[0], ..., V[X] is V[r]. -/
theorem State.getElem_regsUpTo (s : State) (x r : Nibble) (h : r.toNat < (s.regsUpTo x).length) :
    (s.regsUpTo x)[r.toNat] = s.getV r := by
  simp [State.regsUpTo, State.getV]

@[simp] theorem length_bcd (b : Byte) : (bcd b).length = 3 := rfl

/-- The sprite rows are the N bytes at I when they all lie in memory. -/
theorem spriteRows_of_readable (n : Nibble) (s : State) (h : n = 0 ∨ s.i.toNat + n.toNat ≤ 0x1000) :
    spriteRows n s = .ok (s.mem.readBytes s.i.toNat n.toNat) := by
  unfold spriteRows
  split
  · rename_i hn
    have hb : ¬ s.i.toNat + n.toNat - 1 > 0xFFF := by
      rcases h with h | h
      · subst h; simp at hn
      · omega
    rw [memRead_eq, if_neg hb]
  · rename_i hn
    have : n.toNat = 0 := by omega
    simp [this, Memory.readBytes]

/-- Otherwise the access raises, and no row is drawn (R134). -/
theorem spriteRows_of_not_readable (n : Nibble) (s : State)
    (h : ¬ (n = 0 ∨ s.i.toNat + n.toNat ≤ 0x1000)) :
    spriteRows n s = .error (.memoryOutOfBounds (max s.i.toNat 0x1000)) := by
  have h0 : n.toNat ≠ 0 := fun e => h (.inl (BitVec.eq_of_toNat_eq e))
  have h1 : 0x1000 < s.i.toNat + n.toNat := by
    by_contra hc
    exact h (.inr (by omega))
  unfold spriteRows
  rw [if_pos (by omega), memRead_eq, if_pos (by omega)]

end Sys2Proof.Machine
end

