-- ==== Sys2Proof/Laws/PerInstr.lean ====
section
/-! SUPPORT. The family ValidWord: no instruction encodes to a word that R58 lists as invalid. One lemma for each
constructor of `Instr`, which the host's case split names. -/

namespace Sys2Proof.Laws.ValidWord

/-- The encoding of the instruction is not on the list of R58. -/
def Statement (i : Instr) : Prop := invalidWord (encode i) = false

/-- A word whose first nibble is a page without invalid words is valid. -/
theorem of_full_page (w : Word) (h : w.toNat / 4096 ∈ [0x1, 0x2, 0x3, 0x4, 0x6, 0x7, 0xA, 0xB, 0xC, 0xD]) :
    invalidWord w = false := by
  simp only [List.mem_cons, List.not_mem_nil, or_false] at h
  rcases h with h | h | h | h | h | h | h | h | h | h <;> simp [invalidWord, h]

/-- The first nibble of an address word. -/
theorem page_addr (a : Nibble) (n : Addr12) : (a ++ n).toNat / 4096 = a.toNat := by
  rw [toNat_append_eq]
  omega

/-- The first nibble of a register and byte word, and its low byte. -/
theorem page_byte (a x : Nibble) (n : Byte) :
    (a ++ x ++ n).toNat / 4096 = a.toNat ∧ (a ++ x ++ n).toNat % 256 = n.toNat := by
  simp only [toNat_append_eq]
  omega

/-- The first nibble of a word of nibbles, and its last. -/
theorem page_nibbles (a x y n : Nibble) :
    (a ++ x ++ y ++ n).toNat / 4096 = a.toNat ∧ (a ++ x ++ y ++ n).toNat % 16 = n.toNat := by
  simp only [toNat_append_eq]
  omega

theorem full_addr (a : Nibble) (n : Addr12) (h : a.toNat ∈ [0x1, 0x2, 0x3, 0x4, 0x6, 0x7, 0xA, 0xB, 0xC, 0xD]) :
    invalidWord (a ++ n) = false :=
  of_full_page _ (by rw [page_addr]; exact h)

theorem full_byte (a x : Nibble) (n : Byte)
    (h : a.toNat ∈ [0x1, 0x2, 0x3, 0x4, 0x6, 0x7, 0xA, 0xB, 0xC, 0xD]) : invalidWord (a ++ x ++ n) = false :=
  of_full_page _ (by rw [(page_byte a x n).1]; exact h)

/-- Page 8 with an assigned minor opcode. -/
theorem page8 (x y n : Nibble) (h : n.toNat ∉ [0x8, 0x9, 0xA, 0xB, 0xC, 0xD, 0xF]) :
    invalidWord (0x8#4 ++ x ++ y ++ n) = false := by
  obtain ⟨h1, h2⟩ := page_nibbles 0x8#4 x y n
  simp only [invalidWord, h1, h2]
  simpa using h

/-- Pages E and F with an assigned minor opcode. -/
theorem pageE (x : Nibble) (n : Byte) (h : n.toNat ∈ [0x9E, 0xA1]) : invalidWord (0xE#4 ++ x ++ n) = false := by
  obtain ⟨h1, h2⟩ := page_byte 0xE#4 x n
  simp only [invalidWord, h1, h2]
  simp at h ⊢
  omega

theorem pageF (x : Nibble) (n : Byte) (h : n.toNat ∈ [0x07, 0x0A, 0x15, 0x18, 0x1E, 0x29, 0x33, 0x55, 0x65]) :
    invalidWord (0xF#4 ++ x ++ n) = false := by
  obtain ⟨h1, h2⟩ := page_byte 0xF#4 x n
  simp only [invalidWord, h1, h2]
  simp at h ⊢
  omega

theorem cls : Statement .cls := by unfold Statement; decide
theorem ret : Statement .ret := by unfold Statement; decide
theorem jp (nnn : Addr12) : Statement (.jp nnn) := full_addr _ _ (by decide)
theorem call (nnn : Addr12) : Statement (.call nnn) := full_addr _ _ (by decide)
theorem seImm (x : Nibble) (nn : Byte) : Statement (.seImm x nn) := full_byte _ _ _ (by decide)
theorem sneImm (x : Nibble) (nn : Byte) : Statement (.sneImm x nn) := full_byte _ _ _ (by decide)
theorem seReg (x y : Nibble) : Statement (.seReg x y) := by
  obtain ⟨h1, h2⟩ := page_nibbles 0x5#4 x y 0x0#4
  simp only [Statement, encode, invalidWord, h1, h2]
  simp
theorem ldImm (x : Nibble) (nn : Byte) : Statement (.ldImm x nn) := full_byte _ _ _ (by decide)
theorem addImm (x : Nibble) (nn : Byte) : Statement (.addImm x nn) := full_byte _ _ _ (by decide)
theorem ldReg (x y : Nibble) : Statement (.ldReg x y) := page8 _ _ _ (by decide)
theorem or (x y : Nibble) : Statement (.or x y) := page8 _ _ _ (by decide)
theorem and (x y : Nibble) : Statement (.and x y) := page8 _ _ _ (by decide)
theorem xor (x y : Nibble) : Statement (.xor x y) := page8 _ _ _ (by decide)
theorem addReg (x y : Nibble) : Statement (.addReg x y) := page8 _ _ _ (by decide)
theorem sub (x y : Nibble) : Statement (.sub x y) := page8 _ _ _ (by decide)
theorem shr (x y : Nibble) : Statement (.shr x y) := page8 _ _ _ (by decide)
theorem subn (x y : Nibble) : Statement (.subn x y) := page8 _ _ _ (by decide)
theorem shl (x y : Nibble) : Statement (.shl x y) := page8 _ _ _ (by decide)
theorem sneReg (x y : Nibble) : Statement (.sneReg x y) := by
  obtain ⟨h1, h2⟩ := page_nibbles 0x9#4 x y 0x0#4
  simp only [Statement, encode, invalidWord, h1, h2]
  simp
theorem ldI (nnn : Addr12) : Statement (.ldI nnn) := full_addr _ _ (by decide)
theorem jpV0 (nnn : Addr12) : Statement (.jpV0 nnn) := full_addr _ _ (by decide)
theorem rnd (x : Nibble) (nn : Byte) : Statement (.rnd x nn) := full_byte _ _ _ (by decide)
theorem drw (x y n : Nibble) : Statement (.drw x y n) :=
  of_full_page _ (by simp only [encode]; rw [(page_nibbles 0xD#4 x y n).1]; decide)
theorem skp (x : Nibble) : Statement (.skp x) := pageE _ _ (by decide)
theorem sknp (x : Nibble) : Statement (.sknp x) := pageE _ _ (by decide)
theorem ldVxDt (x : Nibble) : Statement (.ldVxDt x) := pageF _ _ (by decide)
theorem ldVxK (x : Nibble) : Statement (.ldVxK x) := pageF _ _ (by decide)
theorem ldDtVx (x : Nibble) : Statement (.ldDtVx x) := pageF _ _ (by decide)
theorem ldStVx (x : Nibble) : Statement (.ldStVx x) := pageF _ _ (by decide)
theorem addI (x : Nibble) : Statement (.addI x) := pageF _ _ (by decide)
theorem ldF (x : Nibble) : Statement (.ldF x) := pageF _ _ (by decide)
theorem ldB (x : Nibble) : Statement (.ldB x) := pageF _ _ (by decide)
theorem storeRegs (x : Nibble) : Statement (.storeRegs x) := pageF _ _ (by decide)
theorem loadRegs (x : Nibble) : Statement (.loadRegs x) := pageF _ _ (by decide)

end Sys2Proof.Laws.ValidWord
end

