-- ==== Sys2Proof/Laws/Step.lean ====
section
/-! SUPPORT. What one step does in each run state (R71), and what `withFetchWord` leaves. -/

namespace Sys2Proof.Machine

theorem step_of_halted {s : State} {f : Fault} (h : s.run = .halted f) : step s = .next s := by
  simp [step, h]

theorem step_of_blocked {s : State} {x : Nibble} (h : s.run = .blockedOnKey x) : step s = stepBlocked x s := by
  simp [step, h]

theorem step_of_running {s : State} (h : s.run = .running) :
    step s = orRaise s (fetchDecode s) fun i => exec i s := by
  simp [step, h]

/-- A step that waits either resolves with the lowest pressed key or changes nothing. -/
theorem stepBlocked_next {x : Nibble} {s t : State} (h : stepBlocked x s = .next t) :
    (∃ k, lowestPressed s = some k ∧ t = resolveKey x k s) ∨ (lowestPressed s = none ∧ t = s) := by
  unfold stepBlocked at h
  split at h
  · rename_i k hk
    cases h
    exact .inl ⟨k, hk, rfl⟩
  · rename_i hk
    cases h
    exact .inr ⟨hk, rfl⟩

/-- The state that `withFetchWord` answers runs, at a PC it can fetch from. -/
theorem State.withFetchWord_run (s : State) (nbits w : Nat) :
    (s.withFetchWord nbits w).run = .running ∧ (s.withFetchWord nbits w).pc.toNat ≤ 0xFFE := by
  refine ⟨rfl, ?_⟩
  simp only [State.withFetchWord]
  split
  · assumption
  · decide

end Sys2Proof.Machine
end

