-- ==== Sys2Proof/Tests/Slice0.lean ====
section
/-! SUPPORT. The model's own tests: the checks of WellFormed refuse ill-formed terms; each constructor's decoding of
a word written out from the spec's encoding; one or two steps for each instruction with the expected values of
spec/95_test_vectors.md; and for each statement with hypotheses a concrete state that meets them. -/

namespace Sys2Proof.Tests

open Sys2Proof.Machine Sys2Proof.Safety Sys2Proof.Claims

/-- The reset state with a word at PC = 0x200. -/
def placed (w : Nat) : State := State.reset.withFetchWord 16 w

/-- The reset state with general registers written. -/
def State.withV (s : State) (vs : List (Nibble × Byte)) : State := vs.foldl (fun s p => s.setV p.1 p.2) s

/-- The reset state with bytes of memory written. -/
def State.withBytes (s : State) (a : Nat) (bs : List Byte) : State := s.setMem (s.mem.writeBytes a bs)

/-- One step answers a next state that has the property. -/
def steps (s : State) (p : State → Bool) : Bool :=
  match step s with
  | .next t => p t
  | _ => false

/-- The next state of an outcome. -/
def nextOf (o : Host.Outcome State Fault Refusal) : State :=
  match o with
  | .next t => t
  | _ => State.reset

/-! ## WellFormed: an ill-formed term for each check, refused -/

/-- 00E0 is an instruction, so the invalid variant may not carry it (R58). -/
theorem test_wf_refuses_invalid_of_valid_word : (Op.invalid 0x00E0).wf = false := by decide
theorem test_wf_accepts_invalid_of_listed_word : (Op.invalid 0x0000).wf = true := by decide
/-- R182: 3585 bytes are rejected and 3584 accepted. -/
theorem test_wf_refuses_long_rom : romOk (List.replicate 3585 0) = false := by
  simp only [romOk, List.length_replicate]
  decide
theorem test_wf_accepts_full_rom : romOk (List.replicate 3584 0) = true := by
  simp only [romOk, List.length_replicate]
  decide
/-- R150: key codes outside 0..15. -/
theorem test_wf_refuses_key_codes : keyCodeOk 16 = false ∧ keyCodeOk (-1) = false := by decide
theorem test_wf_accepts_key_codes : keyCodeOk 0 = true ∧ keyCodeOk 15 = true := by decide
/-- Memory: an entry out of order, one outside the address space, and one equal to the reset contents. -/
theorem test_wf_refuses_memories :
    ¬ Memory.wf [(0x300, 1), (0x200, 1)] ∧ ¬ Memory.wf [(0x1000, 1)] ∧ ¬ Memory.wf [(0x50, 0xF0)] := by decide

/-! ## Decoding: words written out bit by bit from R56 -/

theorem test_decode_cls : decode 0b0000000011100000 = .instr .cls := by decide
theorem test_decode_ret : decode 0b0000000011101110 = .instr .ret := by decide
theorem test_decode_jp : decode 0b0001101010111100 = .instr (.jp 0xABC) := by decide
theorem test_decode_call : decode 0b0010101010111100 = .instr (.call 0xABC) := by decide
theorem test_decode_seImm : decode 0b0011101001011111 = .instr (.seImm 0xA 0x5F) := by decide
theorem test_decode_sneImm : decode 0b0100101001011111 = .instr (.sneImm 0xA 0x5F) := by decide
theorem test_decode_seReg : decode 0b0101101010110000 = .instr (.seReg 0xA 0xB) := by decide
theorem test_decode_ldImm : decode 0b0110101001011111 = .instr (.ldImm 0xA 0x5F) := by decide
theorem test_decode_addImm : decode 0b0111101001011111 = .instr (.addImm 0xA 0x5F) := by decide
theorem test_decode_ldReg : decode 0b1000101010110000 = .instr (.ldReg 0xA 0xB) := by decide
theorem test_decode_or : decode 0b1000101010110001 = .instr (.or 0xA 0xB) := by decide
theorem test_decode_and : decode 0b1000101010110010 = .instr (.and 0xA 0xB) := by decide
theorem test_decode_xor : decode 0b1000101010110011 = .instr (.xor 0xA 0xB) := by decide
theorem test_decode_addReg : decode 0b1000101010110100 = .instr (.addReg 0xA 0xB) := by decide
theorem test_decode_sub : decode 0b1000101010110101 = .instr (.sub 0xA 0xB) := by decide
theorem test_decode_shr : decode 0b1000101010110110 = .instr (.shr 0xA 0xB) := by decide
theorem test_decode_subn : decode 0b1000101010110111 = .instr (.subn 0xA 0xB) := by decide
theorem test_decode_shl : decode 0b1000101010111110 = .instr (.shl 0xA 0xB) := by decide
theorem test_decode_sneReg : decode 0b1001101010110000 = .instr (.sneReg 0xA 0xB) := by decide
theorem test_decode_ldI : decode 0b1010101010111100 = .instr (.ldI 0xABC) := by decide
theorem test_decode_jpV0 : decode 0b1011111111111111 = .instr (.jpV0 0xFFF) := by decide
theorem test_decode_rnd : decode 0b1100101001011111 = .instr (.rnd 0xA 0x5F) := by decide
theorem test_decode_drw : decode 0b1101101010110101 = .instr (.drw 0xA 0xB 5) := by decide
theorem test_decode_skp : decode 0b1110010110011110 = .instr (.skp 5) := by decide
theorem test_decode_sknp : decode 0b1110010110100001 = .instr (.sknp 5) := by decide
theorem test_decode_ldVxDt : decode 0b1111010100000111 = .instr (.ldVxDt 5) := by decide
theorem test_decode_ldVxK : decode 0b1111010100001010 = .instr (.ldVxK 5) := by decide
theorem test_decode_ldDtVx : decode 0b1111010100010101 = .instr (.ldDtVx 5) := by decide
theorem test_decode_ldStVx : decode 0b1111010100011000 = .instr (.ldStVx 5) := by decide
theorem test_decode_addI : decode 0b1111010100011110 = .instr (.addI 5) := by decide
theorem test_decode_ldF : decode 0b1111010100101001 = .instr (.ldF 5) := by decide
theorem test_decode_ldB : decode 0b1111010100110011 = .instr (.ldB 5) := by decide
theorem test_decode_storeRegs : decode 0b1111010101010101 = .instr (.storeRegs 5) := by decide
theorem test_decode_loadRegs : decode 0b1111111101100101 = .instr (.loadRegs 0xF) := by decide
/-- DEC4, DEC5, DEC11, DEC13, DEC16, DEC21, DEC23: reserved encodings do not fall through to a neighbour. -/
theorem test_decode_invalid_words :
    decode 0x00E1 = .invalid 0x00E1 ∧ decode 0x0123 = .invalid 0x0123 ∧ decode 0x5121 = .invalid 0x5121 ∧
    decode 0x8008 = .invalid 0x8008 ∧ decode 0x9121 = .invalid 0x9121 ∧ decode 0xE09F = .invalid 0xE09F ∧
    decode 0xF000 = .invalid 0xF000 := by decide
/-- R41: the byte at the lower address is the more significant; one byte alone is no instruction. -/
theorem test_decode_bytes : decodeBytes [0x61, 0x0B, 0x80] = .ok (.ldImm 1 0x0B, [0x80]) ∧
    decodeBytes [0x61] = .error .truncated ∧ decodeTableWord 16 0x8014 = some (.addReg 0 1) := by decide
/-- The table has 34 rows and no two rows cover one word's pattern. -/
theorem test_table_rows : opcodeTable.length = 34 ∧
    opcodeTable.Pairwise (fun r q => r.pattern &&& (r.mask &&& q.mask) ≠ q.pattern &&& (r.mask &&& q.mask)) :=
  ⟨by decide, by decide +kernel⟩

/-! ## One step of each instruction, by the vectors of L2 -/

/-- CF4: 2NNN with a full stack. -/
def fullStack : State := { State.reset with sp := 16 }

theorem test_cls_dsp11 : steps (({ placed 0x00E0 with display := Display.clear.flip 5 7 }).setV 0xF 0x42)
    (fun t => t.display = Display.clear && t.getV 0xF = 0x42 && t.pc = 0x202) = true := by decide
theorem test_ret_cf6 : steps { placed 0x00EE with sp := 1, stack := State.reset.stack.set 0 0x1000 }
    (fun t => t.pc = 0x1000 && t.sp = 0) = true := by decide
theorem test_ret_empty : steps (placed 0x00EE)
    (fun t => t.run = .halted .stackUnderflow && t.pc = 0x200 && t.sp = 0) = true := by decide
theorem test_jp_cf1 : steps (placed 0x1ABC) (fun t => t.pc = 0xABC) = true := by decide
theorem test_call_cf5 : steps ({ State.reset with pc := 0xFFE }.withFetchWord 16 0x2300)
    (fun t => t.stack[0] = 0x1000 && t.sp = 1 && t.pc = 0x300) = true := by decide
theorem test_call_cf4 : steps (fullStack.withFetchWord 16 0x2ABC)
    (fun t => t.run = .halted .stackOverflow && t.pc = 0x200 && t.sp = 16) = true := by decide
theorem test_seImm_cf7 : steps ((placed 0x3012).setV 0 0x12) (fun t => t.pc = 0x204) = true := by decide
theorem test_seImm_cf8 : steps ((placed 0x3013).setV 0 0x12) (fun t => t.pc = 0x202) = true := by decide
theorem test_sneImm_cf9 : steps ((placed 0x4012).setV 0 0x12) (fun t => t.pc = 0x202) = true := by decide
theorem test_sneImm_cf10 : steps ((placed 0x4013).setV 0 0x12) (fun t => t.pc = 0x204) = true := by decide
theorem test_seReg_cf11 : steps (State.withV (placed 0x5010) [(0, 7), (1, 7)]) (fun t => t.pc = 0x204) = true := by
  decide
theorem test_sneReg_cf12 : steps (State.withV (placed 0x9010) [(0, 7), (1, 8)]) (fun t => t.pc = 0x204) = true := by
  decide
theorem test_sneReg_cf13 : steps (State.withV (placed 0x9010) [(0, 7), (1, 7)]) (fun t => t.pc = 0x202) = true := by
  decide
theorem test_ldImm_alu25 : steps (placed 0x6F0A) (fun t => t.getV 0xF = 0x0A) = true := by decide
theorem test_addImm_alu1 : steps ((placed 0x7F01).setV 0xF 0xFF) (fun t => t.getV 0xF = 0) = true := by decide
theorem test_addImm_alu2 : steps (State.withV (placed 0x7203) [(2, 0xFE), (0xF, 5)])
    (fun t => t.getV 2 = 1 && t.getV 0xF = 5) = true := by decide
theorem test_ldReg_alu22 : steps ((placed 0x8010).setV 1 0x33) (fun t => t.getV 0 = 0x33) = true := by decide
theorem test_or_alu3 : steps (State.withV (placed 0x8011) [(0, 0x0C), (1, 0x0A), (0xF, 1)])
    (fun t => t.getV 0 = 0x0E && t.getV 0xF = 1) = true := by decide
theorem test_and_alu4 : steps (State.withV (placed 0x8012) [(0, 0x0C), (1, 0x0A), (0xF, 1)])
    (fun t => t.getV 0 = 0x08 && t.getV 0xF = 1) = true := by decide
theorem test_xor_r102 : steps (State.withV (placed 0x8013) [(0, 0x0C), (1, 0x0A)])
    (fun t => t.getV 0 = 0x06) = true := by decide
theorem test_addReg_alu8 : steps (State.withV (placed 0x8F14) [(0xF, 0xFF), (1, 1)])
    (fun t => t.getV 0xF = 1) = true := by decide
theorem test_addReg_alu9 : steps (State.withV (placed 0x80F4) [(0, 1), (0xF, 0xFF)])
    (fun t => t.getV 0 = 0 && t.getV 0xF = 1) = true := by decide
theorem test_sub_alu10 : steps (State.withV (placed 0x8015) [(0, 5), (1, 5)])
    (fun t => t.getV 0 = 0 && t.getV 0xF = 1) = true := by decide
theorem test_sub_alu11 : steps (State.withV (placed 0x8015) [(0, 4), (1, 5), (0xF, 9)])
    (fun t => t.getV 0 = 0xFF && t.getV 0xF = 0) = true := by decide
theorem test_shr_alu15 : steps (State.withV (placed 0x8016) [(0, 2), (1, 0xFF), (0xF, 9)])
    (fun t => t.getV 0 = 1 && t.getV 0xF = 0) = true := by decide
theorem test_shr_alu16 : steps ((placed 0x8F06).setV 0xF 3) (fun t => t.getV 0xF = 1) = true := by decide
theorem test_subn_alu17 : steps (State.withV (placed 0x8017) [(0, 5), (1, 3), (0xF, 9)])
    (fun t => t.getV 0 = 0xFE && t.getV 0xF = 0) = true := by decide
theorem test_subn_alu18 : steps (State.withV (placed 0x8017) [(0, 3), (1, 5)])
    (fun t => t.getV 0 = 2 && t.getV 0xF = 1) = true := by decide
theorem test_shl_alu19 : steps ((placed 0x800E).setV 0 0x81) (fun t => t.getV 0 = 2 && t.getV 0xF = 1) = true := by
  decide
theorem test_shl_alu20 : steps (State.withV (placed 0x800E) [(0, 0x40), (0xF, 9)])
    (fun t => t.getV 0 = 0x80 && t.getV 0xF = 0) = true := by decide
theorem test_ldI_idx1 : steps (placed 0xA123) (fun t => t.i = 0x0123) = true := by decide
theorem test_jpV0_cf15 : steps (State.withV (placed 0xB3FF) [(0, 1), (3, 9)]) (fun t => t.pc = 0x400) = true := by
  decide
theorem test_jpV0_cf16 : steps ((placed 0xBFFF).setV 0 0xFF) (fun t => t.pc = 0x10FE) = true := by decide
/-- ALU23: under the mask 0 every draw gives 0; the draw is counted. -/
theorem test_rnd_alu23 : ∀ r : Byte, (nextOf (rndWith r 3 0 ((placed 0xC300).setV 3 7))).getV 3 = 0 := by
  intro r
  simp [rndWith, writeV, finish, nextOf]
theorem test_rnd_counts_draw : steps (placed 0xC30F) (fun t => t.draws = 1 && t.pc = 0x202) = true := by decide
/-- DSP3: clipped at the corner. -/
theorem test_drw_dsp3 : steps (State.withBytes ((State.withV (placed 0xD013) [(0, 62), (1, 30)]).setI 0x300) 0x300
      [0xFF, 0xFF, 0xFF])
    (fun t => t.getV 0xF = 0 &&
      t.display = (((Display.clear.flip 62 30).flip 63 30).flip 62 31).flip 63 31) = true := by decide
/-- DSP10: VF is the y coordinate before it is the flag, and bit 7 is the leftmost pixel. -/
theorem test_drw_dsp10 : steps (State.withBytes (((placed 0xD0F1).setV 0xF 3).setI 0x300) 0x300 [0x80])
    (fun t => t.getV 0xF = 0 && t.display = Display.clear.flip 0 3) = true := by decide
theorem test_skp_tk12 : steps (((placed 0xE19E).setV 1 5).setKey 5 true) (fun t => t.pc = 0x204) = true := by decide
theorem test_skp_tk10 : steps ((placed 0xE09E).setV 0 0x10)
    (fun t => t.run = .halted (.invalidKeyCode 0x10) && t.pc = 0x200) = true := by decide
theorem test_sknp_tk14 : steps ((placed 0xE1A1).setV 1 5) (fun t => t.pc = 0x204) = true := by decide
theorem test_sknp_tk11 : steps ((placed 0xE0A1).setV 0 0x10)
    (fun t => t.run = .halted (.invalidKeyCode 0x10)) = true := by decide
theorem test_ldVxDt_tk4 : steps ((placed 0xF307).setDt 0x3C) (fun t => t.getV 3 = 0x3C) = true := by decide
theorem test_ldVxK_tk15 : steps ((placed 0xF50A).setKey 2 true)
    (fun t => t.run = .blockedOnKey 5 && t.pc = 0x202 && t.getV 5 = 0) = true := by decide
theorem test_ldVxK_tk17 : steps { State.reset.setKey 0xA true with run := .blockedOnKey 0xF }
    (fun t => t.getV 0xF = 0x0A && t.run = .running && t.pc = 0x200) = true := by decide
theorem test_ldDtVx_tk5 : steps ((placed 0xF315).setDt 9) (fun t => t.dt = 0) = true := by decide
theorem test_ldStVx_tk6 : steps ((placed 0xF318).setV 3 2) (fun t => t.st = 2 && t.dt = 0) = true := by decide
theorem test_addI_idx2 : steps (State.withV ((placed 0xF01E).setI 0x0FFF) [(0, 1), (0xF, 7)])
    (fun t => t.i = 0x1000 && t.getV 0xF = 7 && t.run = .running) = true := by decide
theorem test_addI_idx3 : steps (((placed 0xF01E).setI 0xFFFF).setV 0 1) (fun t => t.i = 0) = true := by decide
theorem test_ldF_idx6 : steps ((placed 0xF229).setV 2 0x0A) (fun t => t.i = 0x082) = true := by decide
theorem test_ldF_idx8 : steps ((placed 0xF029).setV 0 0xFF) (fun t => t.i = 0x54B) = true := by decide
theorem test_ldB_idx14 : steps (((placed 0xF033).setV 0 0x9C).setI 0xFFD)
    (fun t => t.mem.readBytes 0xFFD 3 = [1, 5, 6] && t.i = 0xFFD) = true := by decide
theorem test_ldB_idx13 : steps (((placed 0xF033).setV 0 0x9C).setI 0xFFE)
    (fun t => t.run = .halted (.memoryOutOfBounds 0x1000) && t.mem.readBytes 0xFFE 2 = [0, 0]) = true := by decide
theorem test_storeRegs_idx15 : steps ((State.withV (placed 0xF255) [(0, 0x11), (1, 0x22), (2, 0x33)]).setI 0x400)
    (fun t => t.mem.readBytes 0x400 4 = [0x11, 0x22, 0x33, 0] && t.i = 0x400) = true := by decide
theorem test_storeRegs_idx22 : steps (((placed 0xF055).setV 0 0xAA).setI 0x050)
    (fun t => t.mem.read 0x050 = 0xAA) = true := by decide
theorem test_loadRegs_idx21 : steps (State.withBytes ((placed 0xF065).setI 0xFFF) 0xFFF [0x77])
    (fun t => t.getV 0 = 0x77 && t.run = .running) = true := by decide
theorem test_loadRegs_idx4 : steps (((placed 0xF065).setI 0x1000).setV 0 9)
    (fun t => t.run = .halted (.memoryOutOfBounds 0x1000) && t.getV 0 = 9) = true := by decide

/-! ## Fetch and host operations -/

theorem test_fetch_fet2 : steps { State.reset with pc := 0xFFF }
    (fun t => t.run = .halted (.memoryOutOfBounds 0x1000) && t.pc = 0xFFF) = true := by decide
theorem test_fetch_fet5 : steps ({ State.reset with pc := 0x201 }.withFetchWord 16 0x600A)
    (fun t => t.getV 0 = 0x0A && t.pc = 0x203) = true := by decide
theorem test_fetch_fet6 : steps (placed 0x0123)
    (fun t => t.run = .halted (.invalidOpcode 0x0123) && t.pc = 0x200) = true := by decide
theorem test_step_result_fet7 : hostOp .step { State.reset with run := .halted .stackUnderflow } =
    ({ State.reset with run := .halted .stackUnderflow }, .stepped (.failure .stackUnderflow)) := by rfl
theorem test_tick_tk1 : (State.reset.setSt 1).tick.st = 0 ∧ (State.reset.setSt 1).tick.dt = 0 := by decide
theorem test_key_tk7 : hostOp (.keyDown 16) State.reset = (State.reset, .invalidKeyCode 16) := by rfl
/-- DIS1 to DIS3 on the ROM of L1-8. -/
theorem test_disassemble_dis2 :
    let m := (State.loadRom [0x60, 0x0A, 0x61, 0x0B, 0x80, 0x14] State.reset).1.mem
    disassemble m 0x200 0x205 = [⟨0x200, 0x600A, .instr (.ldImm 0 0x0A)⟩, ⟨0x202, 0x610B, .instr (.ldImm 1 0x0B)⟩] ∧
    disassemble m 0x201 0x205 = [⟨0x201, 0x0A61, .invalid 0x0A61⟩, ⟨0x203, 0x0B80, .invalid 0x0B80⟩] := by decide
theorem test_disassemble_dis5 : disassemble [] 0xFFE 0x1002 = [⟨0xFFE, 0x0000, .invalid 0x0000⟩] ∧
    disassemble [] 0x202 0x202 = [] := by decide
theorem test_withFetchWord_moves_pc : ({ State.reset with pc := 0x1000, run := .halted .stackOverflow }.withFetchWord
    16 0x6001).pc = 0x200 := by decide
/-- R137 against the last clause of R140 (notes/assumptions/8.md): two draws of 0x80 over a lit pixel leave
VF = 0. -/
theorem test_draw_twice_over_lit_pixel :
    let s := State.withBytes ((placed 0xD011).setI 0x300) 0x300 [0x80]
    let lit := { s with display := Display.clear.flip 0 0 }
    let t := nextOf (exec (.drw 0 1 1) lit)
    t.getV 0xF = 1 ∧ (nextOf (exec (.drw 0 1 1) t)).getV 0xF = 0 := by decide

/-! ## Witnesses: a state and operands that meet the hypotheses of each statement that has some -/

/-- DecodeEncodeAgree, OpcodeTableAgreesWithDecoder: a valid and an invalid word. -/
theorem witness_valid_and_invalid_word :
    decode 0x8AB6 = .instr (.shr 0xA 0xB) ∧ decode 0x0000 = .invalid 0x0000 ∧ Instr.cls.row ∈ opcodeTable := by
  decide

/-- MemoryFormIsCanonical. -/
theorem witness_memory_wf : Memory.wf [(0x000, 7), (0xFFF, 9)] := by decide

/-- LoadRomResetsAndCopies: both clauses at their boundary. -/
theorem witness_rom_lengths : (List.replicate 3584 (0 : Byte)).length ≤ 3584 ∧
    3584 < (List.replicate 3585 (0 : Byte)).length ∧ ([5] : List Byte)[0]? = some 5 := by
  simp only [List.length_replicate]
  decide

/-- EmptyMachineHaltsAtFirstStep. -/
theorem witness_empty_machine : HostOp.loadRom [] ∈ [HostOp.reset, .loadRom []] := by decide

/-- StepRunsDecodedInstruction at the last PC that can fetch. -/
theorem witness_step_runs :
    let s := { State.reset with pc := 0xFFE }.withFetchWord 16 0x610B
    s.run = .running ∧ s.pc.toNat ≤ 0xFFE ∧ WordAtPc s 0x610B ∧ decode 0x610B = .instr (.ldImm 1 0x0B) := by
  unfold WordAtPc
  decide

/-- FetchAboveMemoryHalts at the first PC that cannot fetch. -/
theorem witness_fetch_above :
    let s := { State.reset with pc := 0xFFF }
    s.run = .running ∧ 0xFFE < s.pc.toNat := by decide

/-- InvalidWordHalts. -/
theorem witness_invalid_word : State.reset.run = .running ∧ State.reset.pc.toNat ≤ 0xFFE ∧
    WordAtPc State.reset 0x0000 ∧ invalidWord 0x0000 = true := by
  unfold WordAtPc
  decide

/-- HaltedIsLeftOnlyByRestart: an operation of each kind; and the Halted state of the statements about who writes
what. -/
theorem witness_halted : { State.reset with run := .halted .stackOverflow }.run = .halted .stackOverflow ∧
    Restarts (.loadRom []) ∧ ¬ Restarts .tick := by
  refine ⟨rfl, .inr ⟨[], rfl, by simp⟩, ?_⟩
  rintro (h | ⟨b, h, -⟩) <;> cases h

/-- KeyWaitTakesLowestKey, WaitForKeyThenResolve: no key, the lowest key and the highest key. -/
theorem witness_key_wait :
    (∀ k : Fin 16, State.reset.keys[k.val] = false) ∧
    (let s := (State.reset.setKey 0 true).setKey 15 true
     s.keys[0] = true ∧ ∀ j : Fin 16, j < 0 → s.keys[j.val] = false) ∧
    (let s := State.reset.setKey 15 true
     s.keys[15] = true ∧ ∀ j : Fin 16, j < 15 → s.keys[j.val] = false) ∧
    { State.reset with run := .blockedOnKey 3 }.run = .blockedOnKey 3 ∧
    exec (.ldVxK 3) State.reset = .next (nextOf (exec (.ldVxK 3) State.reset)) := by
  exact ⟨by decide, by decide, by decide, rfl, rfl⟩

/-- StepFaultsExactlyByTheChecks, StepResultIsFailureOnlyOnFault: each kind of check fails somewhere, and none
fails somewhere. -/
theorem witness_fault_causes :
    faultCause { State.reset with pc := 0xFFF } = some (.memoryOutOfBounds 0x1000) ∧
    faultCause State.reset = some (.invalidOpcode 0) ∧ faultCause (placed 0x00EE) = some .stackUnderflow ∧
    faultCause (fullStack.withFetchWord 16 0x2200) = some .stackOverflow ∧
    faultCause ((placed 0xE09E).setV 0 0x10) = some (.invalidKeyCode 0x10) ∧
    faultCause ((placed 0xF133).setI 0xFFE) = some (.memoryOutOfBounds 0x1000) ∧
    faultCause ((placed 0xF133).setI 0xFFD) = none ∧ faultCause (placed 0xF30A) = none := by decide

/-- FaultEntryIsPrecise. -/
theorem witness_fault_entry : (placed 0x00EE).run = .running ∧
    steps (placed 0x00EE) (fun t => t.run = .halted .stackUnderflow) = true := by decide

/-- StepKeepsInvariant, SessionKeepsInvariant: at the bounds of R77. -/
theorem witness_invariant :
    Inv { State.reset with pc := 0x10FE, stack := Vector.replicate 16 0x1000, sp := 16, mem := [(0xFFF, 1)] } ∧
    Inv (placed 0x00EE) := by decide

/-- TickDecrementsTimers, KeyEventsSetOneKey: each clause at its boundary. -/
theorem witness_timers_and_keys : 0 < (State.reset.setDt 1).dt.toNat ∧ State.reset.dt = 0 ∧
    ((0 : Int) ≤ 0 ∧ (0 : Int) ≤ 15) ∧ ((0 : Int) ≤ 15 ∧ (15 : Int) ≤ 15) ∧
    ¬ ((0 : Int) ≤ -1 ∧ (-1 : Int) ≤ 15) ∧ ¬ ((0 : Int) ≤ 16 ∧ (16 : Int) ≤ 15) := by decide

/-- BoundaryErrorsChangeNothing: both errors occur. -/
theorem witness_boundary_errors :
    (hostOp (.loadRom (List.replicate 3585 0)) State.reset).2 = .romTooLarge ∧
    (hostOp (.keyUp (-1)) State.reset).2 = .invalidKeyCode (-1) := by
  refine ⟨?_, rfl⟩
  simp only [hostOp, State.loadRom, romOk, List.length_replicate]
  rfl

/-- DisassemblyListsCompleteWords, DisassemblyAgreesWithStep: a valid and an invalid record at PC. -/
theorem witness_records : (placed 0x610B).run = .running ∧
    (⟨0x200, 0x610B, .instr (.ldImm 1 0x0B)⟩ : Record) ∈ disassemble (placed 0x610B).mem 0x200 0x202 ∧
    (⟨0x200, 0x0000, .invalid 0x0000⟩ : Record) ∈ disassemble State.reset.mem 0x200 0x202 ∧
    (placed 0x610B).pc = 0x200 ∧ State.reset.pc = 0x200 ∧ ((-1 : Int) < 0) := by decide

/-- CallPushesReturnAddress, ReturnPopsAddress: the stack full, all but full, empty, all but empty. -/
theorem witness_stack : fullStack.sp = 16 ∧ { State.reset with sp := 15 }.sp.val < 16 ∧ State.reset.sp = 0 ∧
    { State.reset with sp := 1 }.sp.val = (0 : Fin 16).val + 1 ∧ fullStack.sp.val = (15 : Fin 16).val + 1 := by
  decide

/-- JumpsReachTheirTargets, ReturnPopsAddress: targets above 0xFFE in Running (CF16, CF5). -/
theorem witness_far_targets : ((State.reset.setV 0 0xFF).run = .running ∧
    0xFFE < (nextOf (exec (.jpV0 0xFFF) (State.reset.setV 0 0xFF))).pc.toNat) ∧
    (let s := { State.reset with sp := 1, stack := State.reset.stack.set 0 0x1000 }
     s.run = .running ∧ s.sp.val = (0 : Fin 16).val + 1 ∧ 0xFFE < (nextOf (exec .ret s)).pc.toNat) := by decide

/-- SelfCallOverflowsAtTheSeventeenth: program P5. -/
theorem witness_self_call : (placed 0x2200).run = .running ∧ (placed 0x2200).sp = 0 ∧ (0x200 : Addr12).toNat ≤ 0xFFE ∧
    (placed 0x2200).pc.toNat = (0x200 : Addr12).toNat ∧ WordAtPc (placed 0x2200) (encode (.call 0x200)) := by
  unfold WordAtPc
  decide

/-- CallThenReturnComesBack: vector L1-4. -/
theorem witness_call_return :
    let s := State.withBytes (placed 0x2300) 0x300 [0x00, 0xEE]
    s.run = .running ∧ s.pc.toNat ≤ 0xFFE ∧ s.sp.val < 16 ∧ WordAtPc s (encode (.call 0x300)) ∧
    s.mem.wordAt 0x300 = 0x00EE ∧ step s = .next (nextOf (step s)) ∧
    step (nextOf (step s)) = .next (nextOf (step (nextOf (step s)))) := by
  unfold WordAtPc
  exact ⟨by decide, by decide, by decide, by decide, by decide, rfl, rfl⟩

/-- RegisterSkipsFollowTheirConditions, KeySkipsReadTheNamedKey: each condition met and not met, and the key
codes at the bound. -/
theorem witness_skips : State.reset.getV 0 = 0 ∧ State.reset.getV 0 ≠ 1 ∧ State.reset.getV 0 = State.reset.getV 1 ∧
    (State.reset.setV 0 1).getV 0 ≠ (State.reset.setV 0 1).getV 1 ∧
    0xF < ((State.reset.setV 0 0x10).getV 0).toNat ∧
    ((State.reset.setV 0 0xF).getV 0).toNat = (15 : Fin 16).val ∧
    (State.reset.setKey 15 true).keys[15] = true ∧ State.reset.keys[15] = false := by decide

/-- The statements of the flag-writing instructions, and SameRegisterAndFlagRegisterCases: X ≠ F and each row. -/
theorem witness_flag_register_cases : (0x3 : Nibble) ≠ 0xF ∧ ((0x3 : Nibble) = 0x3 ∧ (0x3 : Nibble) ≠ 0xF) ∧
    ((0xF : Nibble) = 0xF ∧ (0x3 : Nibble) ≠ 0xF) ∧ ((0xF : Nibble) = 0xF ∧ (0xF : Nibble) = 0xF) := by decide

/-- BcdStoresThreeDigits, StoreRegistersCopiesToMemory, LoadRegistersCopiesFromMemory: the last address that the
access fits at and the first that it does not. -/
theorem witness_transfer_bounds : State.reset.mem.wf ∧ (State.reset.setI 0xFFD).i.toNat + 2 ≤ 0xFFF ∧
    0xFFF < (State.reset.setI 0xFFE).i.toNat + 2 ∧ (State.reset.setI 0xFF0).i.toNat + (0xF : Nibble).toNat ≤ 0xFFF ∧
    0xFFF < (State.reset.setI 0xFF1).i.toNat + (0xF : Nibble).toNat := by decide

/-- StoredWordIsFetchedNext: F155 at 0x200 with I = 0x202 stores 0x610B over the next word. -/
theorem witness_stored_word :
    let s := (State.withV (placed 0xF155) [(0, 0x61), (1, 0x0B)]).setI 0x202
    s.mem.wf ∧ s.run = .running ∧ s.i.toNat + (1 : Nibble).toNat ≤ 0xFFF ∧ (0 : Nibble).toNat + 1 = (1 : Nibble).toNat ∧
    s.i.toNat + (0 : Nibble).toNat = s.pc.toNat + 2 ∧ decode (s.getV 0 ++ s.getV 1) = .instr (.ldImm 1 0x0B) ∧
    exec (.storeRegs 1) s = .next (nextOf (exec (.storeRegs 1) s)) := by
  exact ⟨by decide, by decide, by decide, by decide, by decide, by decide, rfl⟩

/-- DrawXorsTheSprite: N = 0 with any I, the last I that five rows fit at, and the first that they do not. -/
theorem witness_sprites : SpriteReadable 0 (State.reset.setI 0xFFFF) ∧ SpriteReadable 5 (State.reset.setI 0xFFB) ∧
    ¬ SpriteReadable 5 (State.reset.setI 0xFFC) := by
  unfold SpriteReadable
  decide

/-- DrawXorsTheSprite: a sprite bit in the corner that is lit and then dark. -/
theorem witness_sprite_bit : SpriteBit 0 1 1 (State.withV (State.reset.setI 0x050) [(0, 63), (1, 31)]) 63 31 ∧
    (Display.clear.flip 63 31).cell 63 31 = true ∧ Display.clear.cell 63 31 = false := by
  refine ⟨⟨0, 0, by decide, by decide, by decide, by decide, by decide⟩, by decide, by decide⟩

/-- DrawTwiceRestoresDisplay. -/
theorem witness_draw_twice :
    let s := placed 0xD011
    let t := nextOf (exec (.drw 0 1 1) s)
    SpriteReadable 1 s ∧ exec (.drw 0 1 1) s = .next t ∧ t.mem = s.mem ∧ t.i = s.i ∧
    (t.getV 0).toNat % 64 = (s.getV 0).toNat % 64 ∧ (t.getV 1).toNat % 32 = (s.getV 1).toNat % 32 ∧
    exec (.drw 0 1 1) t = .next (nextOf (exec (.drw 0 1 1) t)) := by
  unfold SpriteReadable
  exact ⟨by decide, rfl, rfl, rfl, by decide, by decide, rfl⟩

/-- The statements about who writes what: an instruction that answers a next state, one that changes each piece
of state, and a step that does not run. -/
theorem witness_writers :
    exec (.ldImm 1 2) State.reset = .next (nextOf (exec (.ldImm 1 2) State.reset)) ∧ ¬ MayWriteV (.ldImm 1 2) 0 ∧
    (nextOf (exec (.ldI 5) State.reset)).i ≠ State.reset.i ∧
    (nextOf (exec .cls { State.reset with display := Display.clear.flip 0 0 })).display ≠ Display.clear.flip 0 0 ∧
    (nextOf (exec (.ldDtVx 0) (State.reset.setDt 1))).dt ≠ 1 ∧
    (nextOf (exec (.ldStVx 0) (State.reset.setSt 1))).st ≠ 1 ∧
    (nextOf (exec (.rnd 0 0) State.reset)).draws ≠ 0 ∧
    ¬ SameStack State.reset (nextOf (exec (.call 0) State.reset)) ∧
    { State.reset with run := .blockedOnKey 1 }.run ≠ .running ∧ HostOp.tick ≠ .step ∧
    (0x2FF < 0x300 + storedAtI (.ldB 0) ∧ 0x300 + storedAtI (.ldB 0) ≤ 0x303) := by
  unfold MayWriteV SameStack
  exact ⟨rfl, by decide, by decide, by decide, by decide, by decide, by decide, by decide, by decide, by decide,
    by decide⟩

/-- RunStateChangesOnlyByWaitOrFault: both cases. -/
theorem witness_instr_fault : instrFault .ret State.reset = some .stackUnderflow ∧
    instrFault (.ldVxK 1) State.reset = none := by decide

/-- IdleAndWaitingStatesAreStable. -/
theorem witness_idle_and_waiting : Idle (placed 0x1200) ∧ Waiting { State.reset with run := .blockedOnKey 1 } ∧
    ∀ op ∈ [HostOp.step, .tick], op = .step ∨ op = .tick := by
  refine ⟨⟨rfl, by decide, 0x200, by decide, by decide⟩, ⟨⟨1, rfl⟩, by decide⟩, by decide⟩

/-- A host that steps and ticks in turn. -/
def inTurn : Schedule := fun n => if n % 2 = 0 then .step else .tick

/-- DelayLoopEndsWhenTicksKeepComing: the loop of program P7 moved to 0x200, before and at the tick that empties
DT, on a schedule that is fair. -/
theorem witness_delay_loop :
    let s := (State.withBytes (placed 0xF107) 0x202 [0x31, 0x00, 0x12, 0x00]).setDt 2
    s.run = .running ∧ s.pc.toNat = (0x200 : Addr12).toNat ∧ (0x200 : Addr12).toNat + 4 ≤ 0xFFE ∧
    s.mem.wordAt 0x200 = encode (.ldVxDt 1) ∧ s.mem.wordAt 0x202 = encode (.seImm 1 0) ∧
    s.mem.wordAt 0x204 = encode (.jp 0x200) ∧ ((List.range 3).map inTurn).count .tick < s.dt.toNat ∧
    ¬ ((List.range 4).map inTurn).count .tick < s.dt.toNat := by decide

theorem witness_fair_schedule :
    TicksKeepComing inTurn ∧ KeepsComing .step inTurn ∧ ∀ n, ¬ Restarts (inTurn n) := by
  refine ⟨fun n => ⟨2 * n + 1, by omega, ?_⟩, fun n => ⟨2 * n, by omega, ?_⟩, fun n => ?_⟩
  · simp [inTurn, Nat.add_mod]
  · simp [inTurn]
  · unfold inTurn
    split <;> rintro (h | ⟨b, h, -⟩) <;> cases h

end Sys2Proof.Tests
end

section
/-! The reset state, field by field (spec/10_state.md R31), and the statement of the family that says it. -/

namespace Sys2Proof.Machine

/-! ## The reset contents of memory -/

@[simp] theorem length_font : font.length = 80 := rfl

@[simp] theorem Memory.read_nil (a : Nat) : Memory.read [] a = resetByte a := rfl

/-- The five bytes that stand at a digit's place in the font are its glyph in the table of R27. -/
theorem resetBytes_glyph (d : Fin 16) :
    Memory.readBytes [] (0x050 + 5 * d.val) 5 = Claims.glyph d := by
  revert d
  decide

theorem resetByte_below_font {a : Nat} (h : a < 0x050) : resetByte a = 0 :=
  if_pos h

theorem resetByte_above_font {a : Nat} (h : 0x0A0 ≤ a) : resetByte a = 0 := by
  have hbase : ¬ a < fontBase := by unfold fontBase; omega
  have hend : font.length ≤ a - fontBase := by rw [length_font]; unfold fontBase; omega
  rw [resetByte, if_neg hbase, List.getD_eq_default _ _ hend]

theorem resetByte_outside_font {a : Nat} (h : a < 0x050 ∨ 0x0A0 ≤ a) : resetByte a = 0 :=
  h.elim resetByte_below_font resetByte_above_font

/-! ## `State.doReset` -/

@[simp] theorem State.doReset_mem (s : State) : s.doReset.mem = [] := rfl
@[simp] theorem State.doReset_i (s : State) : s.doReset.i = 0 := rfl
@[simp] theorem State.doReset_pc (s : State) : s.doReset.pc = 0x200 := rfl
@[simp] theorem State.doReset_sp (s : State) : s.doReset.sp = 0 := rfl
@[simp] theorem State.doReset_dt (s : State) : s.doReset.dt = 0 := rfl
@[simp] theorem State.doReset_st (s : State) : s.doReset.st = 0 := rfl
@[simp] theorem State.doReset_run (s : State) : s.doReset.run = .running := rfl
@[simp] theorem State.doReset_draws (s : State) : s.doReset.draws = s.draws := rfl
@[simp] theorem State.doReset_display (s : State) : s.doReset.display = Display.clear := rfl

@[simp] theorem State.getV_doReset (s : State) (r : Nibble) : s.doReset.getV r = 0 :=
  Vector.getElem_replicate _

@[simp] theorem State.getElem_stack_doReset (s : State) (k : Fin 16) : s.doReset.stack[k.val] = 0 :=
  Vector.getElem_replicate _

@[simp] theorem State.getElem_keys_doReset (s : State) (k : Fin 16) : s.doReset.keys[k.val] = false :=
  Vector.getElem_replicate _

end Sys2Proof.Machine

namespace Sys2Proof.Proofs

open Sys2Proof.Machine

/-- Settles O6: the row of R31 for memory by the two lemmas on the reset contents, every other row by the field's
own lemma. -/
theorem resetLeavesTheResetValues : Obligations.ResetLeavesTheResetValues := by
  intro s
  refine ⟨s.doReset, rfl, ?glyphs, ?zeroes, s.getV_doReset, s.doReset_i, s.doReset_pc,
    s.getElem_stack_doReset, s.doReset_sp, s.doReset_dt, s.doReset_st, ?cells, s.getElem_keys_doReset, s.doReset_run⟩
  case glyphs =>
    intro d
    rw [State.doReset_mem, resetBytes_glyph]
  case zeroes =>
    intro a outside
    rw [State.doReset_mem, Memory.read_nil, resetByte_outside_font outside]
  case cells =>
    intro x y
    rw [State.doReset_display, Display.cell_clear]

end Sys2Proof.Proofs
end

section
/-! The interpreter's cycle (spec/40_interpreter_cycle.md R71 to R80): when the checks of a step fail and with which
fault, what a step does when one fails and when none does, and the statements of the family that say it. -/

namespace Sys2Proof.Machine

open Sys2Proof.Safety

/-! ## Invalid words (R58)

The pages that hold invalid words, in terms of the fields that the decoder reads. -/

theorem fieldOp_toNat (w : Word) : (fieldOp w).toNat = w.toNat / 4096 := by
  have := w.isLt
  simp only [fieldOp, BitVec.extractLsb'_toNat, Nat.shiftRight_eq_div_pow]
  omega

theorem fieldN_toNat (w : Word) : (fieldN w).toNat = w.toNat % 16 := by
  simp only [fieldN, BitVec.extractLsb'_toNat, Nat.shiftRight_zero, Nat.reducePow]

theorem fieldNN_toNat (w : Word) : (fieldNN w).toNat = w.toNat % 256 := by
  simp only [fieldNN, BitVec.extractLsb'_toNat, Nat.shiftRight_zero, Nat.reducePow]

theorem fieldOp_eq_of_page {w : Word} {k : Nibble} (h : w.toNat / 4096 = k.toNat) : fieldOp w = k :=
  BitVec.eq_of_toNat_eq (by rw [fieldOp_toNat, h])

theorem fieldN_ne_zero {w : Word} (h : w.toNat % 16 ≠ 0) : fieldN w ≠ 0#4 := fun e =>
  h (by rw [← fieldN_toNat, e]; rfl)

theorem decodePage0_of_unlisted {w : Word} (h : w.toNat % 4096 ∉ [0x0E0, 0x0EE]) : decodePage0 w = .invalid w := by
  have not_cls : w ≠ 0x00E0#16 := by rintro rfl; exact h (by decide)
  have not_ret : w ≠ 0x00EE#16 := by rintro rfl; exact h (by decide)
  rw [decodePage0, if_neg not_cls, if_neg not_ret]

theorem decodePage8_of_unassigned {w : Word} (h : w.toNat % 16 ∈ [0x8, 0x9, 0xA, 0xB, 0xC, 0xD, 0xF]) :
    decodePage8 w = .invalid w := by
  rw [← fieldN_toNat] at h
  unfold decodePage8
  split
  case h_10 => rfl
  all_goals
    rename_i assigned
    rw [assigned] at h
    exact absurd h (by decide)

theorem decodePageE_of_unlisted {w : Word} (h : w.toNat % 256 ∉ [0x9E, 0xA1]) : decodePageE w = .invalid w := by
  rw [← fieldNN_toNat] at h
  unfold decodePageE
  split
  case h_3 => rfl
  all_goals
    rename_i listed
    rw [listed] at h
    exact absurd (by decide) h

theorem decodePageF_of_unlisted {w : Word}
    (h : w.toNat % 256 ∉ [0x07, 0x0A, 0x15, 0x18, 0x1E, 0x29, 0x33, 0x55, 0x65]) :
    decodePageF w = .invalid w := by
  rw [← fieldNN_toNat] at h
  unfold decodePageF
  split
  case h_10 => rfl
  all_goals
    rename_i listed
    rw [listed] at h
    exact absurd (by decide) h

/-- A word on the list of R58 decodes to the invalid variant that carries it, page by page. -/
theorem decode_of_invalidWord {w : Word} (h : invalidWord w = true) : decode w = .invalid w := by
  simp only [invalidWord] at h
  split at h <;> rename_i page
  · simp only [decode, fieldOp_eq_of_page (k := 0x0#4) page]
    exact decodePage0_of_unlisted (of_decide_eq_true h)
  · simp only [decode, fieldOp_eq_of_page (k := 0x5#4) page]
    exact if_neg (fieldN_ne_zero (of_decide_eq_true h))
  · simp only [decode, fieldOp_eq_of_page (k := 0x8#4) page]
    exact decodePage8_of_unassigned (of_decide_eq_true h)
  · simp only [decode, fieldOp_eq_of_page (k := 0x9#4) page]
    exact if_neg (fieldN_ne_zero (of_decide_eq_true h))
  · simp only [decode, fieldOp_eq_of_page (k := 0xE#4) page]
    exact decodePageE_of_unlisted (of_decide_eq_true h)
  · simp only [decode, fieldOp_eq_of_page (k := 0xF#4) page]
    exact decodePageF_of_unlisted (of_decide_eq_true h)
  · exact absurd h (by decide)

/-! ## The bound of an access (R34, R44) -/

theorem boundsFault_eq_some {a n : Nat} {f : Fault} :
    boundsFault a n = some f ↔ (0x1000 < a + n ∧ 0 < n) ∧ .memoryOutOfBounds (max a 0x1000) = f := by
  simp [boundsFault]

theorem boundsFault_eq_none {a n : Nat} : boundsFault a n = none ↔ n = 0 ∨ a + n ≤ 0x1000 := by
  simp only [boundsFault, ite_eq_right_iff, reduceCtorEq, imp_false]
  omega

/-- The fault that R163 names is the one that the check of a whole access raises. -/
theorem checkAccess_of_boundsFault {a n : Nat} {f : Fault} (h : boundsFault a n = some f) :
    checkAccess a n = .error f := by
  obtain ⟨⟨above, -⟩, rfl⟩ := boundsFault_eq_some.1 h
  exact checkAccess_eq_error (by omega)

theorem checkAccess_of_inside {a n : Nat} (pos : 0 < n) (h : boundsFault a n = none) : checkAccess a n = .ok () := by
  have := boundsFault_eq_none.1 h
  exact checkAccess_eq_ok (by omega)

theorem spriteRows_of_boundsFault {n : Nibble} {s : State} {f : Fault}
    (h : boundsFault s.i.toNat n.toNat = some f) : spriteRows n s = .error f := by
  obtain ⟨⟨above, pos⟩, rfl⟩ := boundsFault_eq_some.1 h
  refine spriteRows_of_not_readable n s ?_
  rintro (rfl | inside)
  · exact absurd pos (by decide)
  · omega

theorem spriteRows_of_inside {n : Nibble} {s : State} (h : boundsFault s.i.toNat n.toNat = none) :
    spriteRows n s = .ok (s.mem.readBytes s.i.toNat n.toNat) :=
  spriteRows_of_readable n s ((boundsFault_eq_none.1 h).imp_left BitVec.eq_of_toNat_eq)

theorem storeAtI_of_boundsFault {bs : List Byte} {s : State} {f : Fault}
    (h : boundsFault s.i.toNat bs.length = some f) : storeAtI bs s = raise f s := by
  rw [storeAtI, memWrite, checkAccess_of_boundsFault h]
  rfl

theorem storeAtI_of_inside {bs : List Byte} {s : State} (pos : 0 < bs.length)
    (h : boundsFault s.i.toNat bs.length = none) :
    storeAtI bs s = finish .default (s.setMem (s.mem.writeBytes s.i.toNat bs)) := by
  rw [storeAtI, memWrite, checkAccess_of_inside pos h]
  rfl

theorem execLoadRegs_of_boundsFault {x : Nibble} {s : State} {f : Fault}
    (h : boundsFault s.i.toNat (x.toNat + 1) = some f) : execLoadRegs x s = raise f s := by
  rw [execLoadRegs, memRead, checkAccess_of_boundsFault h]
  rfl

theorem execLoadRegs_of_inside {x : Nibble} {s : State} (h : boundsFault s.i.toNat (x.toNat + 1) = none) :
    execLoadRegs x s = finish .default (s.setRegs (s.mem.readBytes s.i.toNat (x.toNat + 1))) := by
  rw [execLoadRegs, memRead, checkAccess_of_inside (Nat.succ_pos _) h]
  rfl

/-! ## The instruction's own check (R80, R163) -/

/-- An instruction whose own check fails raises that check's fault. -/
theorem exec_of_instrFault {i : Instr} {s : State} {f : Fault} (h : instrFault i s = some f) :
    exec i s = raise f s := by
  cases i with
  | call nnn =>
    obtain ⟨full, ⟨⟩⟩ := Option.ite_none_right_eq_some.1 h
    simp only [exec, execCall, State.push_of_full _ _ full]
  | ret =>
    obtain ⟨empty, ⟨⟩⟩ := Option.ite_none_right_eq_some.1 h
    simp only [exec, execRet, State.pop_of_empty _ empty]
  | skp x | sknp x =>
    obtain ⟨noKey, ⟨⟩⟩ := Option.ite_none_right_eq_some.1 h
    simp only [exec, execSkp, execSknp, keyPressed_of_ge s noKey, orRaise_error]
  | drw x y n => simp only [exec, execDrw, spriteRows_of_boundsFault h, orRaise_error]
  | ldB x => exact storeAtI_of_boundsFault h
  | storeRegs x => exact storeAtI_of_boundsFault (by rwa [State.length_regsUpTo])
  | loadRegs x => exact execLoadRegs_of_boundsFault h
  | _ => cases h

/-- An instruction whose own check passes, or that has none, completes and keeps RUN, but for FX0A. -/
theorem exec_of_instrFault_none {i : Instr} {s : State} (h : instrFault i s = none) :
    ∃ t, exec i s = .next t ∧ (t.run = s.run ∨ ∃ x, i = .ldVxK x ∧ t.run = .blockedOnKey x) := by
  cases i with
  | call nnn =>
    have notFull : s.sp ≠ 16 := fun full => by simp [instrFault, full] at h
    have room : s.sp.val < 16 := by omega
    simp only [exec, execCall, State.push_of_lt _ _ room]
    exact ⟨_, rfl, .inl rfl⟩
  | ret =>
    have notEmpty : s.sp ≠ 0 := fun empty => by simp [instrFault, empty] at h
    have filled : 0 < s.sp.val := by omega
    simp only [exec, execRet, State.pop_of_pos _ filled]
    exact ⟨_, rfl, .inl rfl⟩
  | skp x | sknp x =>
    have key : (s.getV x).toNat < 16 := by simpa [instrFault, Nat.lt_succ_iff] using h
    simp only [exec, execSkp, execSknp, keyPressed_of_lt s key]
    exact ⟨_, rfl, .inl rfl⟩
  | drw x y n =>
    simp only [exec, execDrw, spriteRows_of_inside h]
    exact ⟨_, rfl, .inl rfl⟩
  | ldB x => exact ⟨_, storeAtI_of_inside (Nat.succ_pos _) h, .inl rfl⟩
  | storeRegs x =>
    have length := s.length_regsUpTo x
    exact ⟨_, storeAtI_of_inside (by omega) (by rwa [length]), .inl rfl⟩
  | loadRegs x => exact ⟨_, execLoadRegs_of_inside h, .inl rfl⟩
  | ldVxK x => exact ⟨_, rfl, .inr ⟨x, rfl, rfl⟩⟩
  | _ => exact ⟨_, rfl, .inl rfl⟩

/-! ## Fetch and decode (R75, R78) -/

theorem wordAtPc_iff {s : State} {w : Word} : Claims.WordAtPc s w ↔ s.mem.wordAt s.pc.toNat = w := by
  rw [Claims.WordAtPc, ← Memory.wordAt_toNat, BitVec.toNat_inj, eq_comm]

theorem pc_le_of_boundsFault_none {s : State} (h : boundsFault s.pc.toNat 2 = none) : s.pc.toNat ≤ 0xFFE := by
  have := boundsFault_eq_none.1 h
  omega

theorem fetchDecode_of_boundsFault {s : State} {f : Fault} (h : boundsFault s.pc.toNat 2 = some f) :
    fetchDecode s = .error f := by
  obtain ⟨⟨above, -⟩, rfl⟩ := boundsFault_eq_some.1 h
  rw [fetchDecode_eq, if_pos (by omega)]

theorem fetchDecode_of_invalid {s : State} {w : Word} (inside : s.pc.toNat ≤ 0xFFE)
    (h : decode (s.mem.wordAt s.pc.toNat) = .invalid w) : fetchDecode s = .error (.invalidOpcode w) := by
  rw [fetchDecode_eq, if_neg (by omega), h]

theorem fetchDecode_of_instr {s : State} {i : Instr} (inside : s.pc.toNat ≤ 0xFFE)
    (h : decode (s.mem.wordAt s.pc.toNat) = .instr i) : fetchDecode s = .ok i := by
  rw [fetchDecode_eq, if_neg (by omega), h]

/-! ## The step (R71, R80) -/

theorem step_of_fetchDecode_error {s : State} {f : Fault} (running : s.run = .running)
    (h : fetchDecode s = .error f) : step s = raise f s := by
  rw [step_of_running running, h, orRaise_error]

theorem step_of_fetchDecode_ok {s : State} {i : Instr} (running : s.run = .running)
    (h : fetchDecode s = .ok i) : step s = exec i s := by
  rw [step_of_running running, h, orRaise_ok]

/-- The three checks in the order of R80: a step raises the fault of the first that fails. -/
theorem step_of_faultCause {s : State} {f : Fault} (running : s.run = .running) (h : faultCause s = some f) :
    step s = raise f s := by
  unfold faultCause at h
  split at h
  · rename_i above
    cases h
    exact step_of_fetchDecode_error running (fetchDecode_of_boundsFault above)
  · rename_i noBoundsFault
    have inside := pc_le_of_boundsFault_none noBoundsFault
    split at h
    · rename_i invalid
      cases h
      exact step_of_fetchDecode_error running (fetchDecode_of_invalid inside invalid)
    · rename_i valid
      rw [step_of_fetchDecode_ok running (fetchDecode_of_instr inside valid), exec_of_instrFault h]

/-- When no check fails, a step executes the instruction at PC, whose own check passes. -/
theorem step_of_faultCause_none {s : State} (running : s.run = .running) (h : faultCause s = none) :
    ∃ i, decode (s.mem.wordAt s.pc.toNat) = .instr i ∧ instrFault i s = none ∧ step s = exec i s := by
  unfold faultCause at h
  split at h
  · cases h
  · rename_i noBoundsFault
    have inside := pc_le_of_boundsFault_none noBoundsFault
    split at h
    · cases h
    · rename_i i valid
      exact ⟨i, valid, h, step_of_fetchDecode_ok running (fetchDecode_of_instr inside valid)⟩

/-! ## The result of the host's step (R72) -/

theorem hostOp_step_of_halts {s t : State} {f : Fault} (h : step s = .next t) (halted : t.run = .halted f) :
    hostOp .step s = (t, .stepped (.failure f)) := by
  rw [hostOp, doStep_of_next h, stepResult_of_halted halted]

theorem hostOp_step_of_not_halts {s t : State} (h : step s = .next t) (not_halted : ∀ f, t.run ≠ .halted f) :
    hostOp .step s = (t, .stepped .success) := by
  rw [hostOp, doStep_of_next h, stepResult_of_not_halted not_halted]

/-! ## The key wait (R73, R74) -/

theorem step_of_blocked_without_key {s : State} {x : Nibble} (blocked : s.run = .blockedOnKey x)
    (h : lowestPressed s = none) : step s = .next s := by
  rw [step_of_blocked blocked, stepBlocked, h]

theorem step_of_blocked_with_key {s : State} {x : Nibble} {k : Fin 16} (blocked : s.run = .blockedOnKey x)
    (h : lowestPressed s = some k) : step s = .next (resolveKey x k s) := by
  rw [step_of_blocked blocked, stepBlocked, h]

@[simp] theorem resolveKey_run (x : Nibble) (k : Fin 16) (s : State) : (resolveKey x k s).run = .running := rfl

theorem getV_resolveKey (x r : Nibble) (k : Fin 16) (s : State) :
    (resolveKey x k s).getV r = if r = x then u8 k.val else s.getV r := by
  rw [resolveKey, State.getV_setRun, State.getV_setV]

/-- Resolving a key wait writes V and RUN alone. -/
theorem resolveKey_eq (x : Nibble) (k : Fin 16) (s : State) :
    resolveKey x k s = { s with v := (resolveKey x k s).v, run := .running } := rfl

end Sys2Proof.Machine

namespace Sys2Proof.Proofs

open Sys2Proof.Machine Sys2Proof.Safety

/-- Settles O12: the fetch succeeds, the word decodes to the invalid variant, and the step raises its fault. -/
theorem invalidWordHalts : Obligations.InvalidWordHalts := by
  intro s w running inside atPc invalid
  have decoded : decode (s.mem.wordAt s.pc.toNat) = .invalid w := by
    rw [wordAtPc_iff.1 atPc, decode_of_invalidWord invalid]
  exact hostOp_step_of_halts (step_of_fetchDecode_error running (fetchDecode_of_invalid inside decoded)) rfl

/-- Settles O14: by whether the search for the lowest pressed key finds one. -/
theorem keyWaitTakesLowestKey : Obligations.KeyWaitTakesLowestKey := by
  intro s x blocked
  constructor
  · intro noKey
    have found := (lowestPressed_eq_none s).2 noKey
    exact hostOp_step_of_not_halts (step_of_blocked_without_key blocked found) (by simp [blocked])
  · intro k pressed lowest
    have found := (lowestPressed_eq_some s k).2 ⟨pressed, lowest⟩
    refine ⟨resolveKey x k s, hostOp_step_of_not_halts (step_of_blocked_with_key blocked found) (by simp),
      ?written, ?others, resolveKey_eq x k s⟩
    case written =>
      rw [getV_resolveKey, if_pos rfl, u8_toNat]
      omega
    case others =>
      intro r other
      rw [getV_resolveKey, if_neg other]

/-- Settles O16: by whether a check fails; if none does, the instruction at PC completes, and only FX0A leaves
Running. -/
theorem stepFaultsExactlyByTheChecks : Obligations.StepFaultsExactlyByTheChecks := by
  intro s t running stepped
  cases cause : faultCause s with
  | some f =>
    rw [step_of_faultCause running cause] at stepped
    cases stepped
    rfl
  | none =>
    obtain ⟨i, decoded, passes, executed⟩ := step_of_faultCause_none running cause
    obtain ⟨t', completed, run⟩ := exec_of_instrFault_none passes
    rw [executed, completed] at stepped
    cases stepped
    rcases run with kept | ⟨x, rfl, waits⟩
    · exact .inl (kept.trans running)
    · exact .inr ⟨x, _, wordAtPc_iff.2 rfl, decoded, waits⟩

end Sys2Proof.Proofs
end

section
/-! Control transfer and the register skips (spec/41_control_flow.md R84 to R92): what the decoder answers for their
words, the next state of each instruction, the halt at a PC that nothing can be fetched from, and the statements of
the family that say it. -/

namespace Sys2Proof.Machine

open Sys2Proof.Claims

/-! ## Decoding (R56, R57) -/

theorem decode_jp (nnn : Addr12) : decode (0x1#4 ++ nnn) = .instr (.jp nnn) := by
  simp only [decode, fieldOp_addr, fieldNNN_addr]

theorem decode_jpV0 (nnn : Addr12) : decode (0xB#4 ++ nnn) = .instr (.jpV0 nnn) := by
  simp only [decode, fieldOp_addr, fieldNNN_addr]

theorem decode_call (nnn : Addr12) : decode (0x2#4 ++ nnn) = .instr (.call nnn) := by
  simp only [decode, fieldOp_addr, fieldNNN_addr]

theorem decode_ret : decode 0x00EE = .instr .ret := rfl

theorem decode_seImm (x : Nibble) (nn : Byte) : decode (0x3#4 ++ x ++ nn) = .instr (.seImm x nn) := by
  simp only [decode, fieldOp_byte, fieldX_byte, fieldNN_byte]

theorem decode_sneImm (x : Nibble) (nn : Byte) : decode (0x4#4 ++ x ++ nn) = .instr (.sneImm x nn) := by
  simp only [decode, fieldOp_byte, fieldX_byte, fieldNN_byte]

theorem decode_seReg (x y : Nibble) : decode (0x5#4 ++ x ++ y ++ 0x0#4) = .instr (.seReg x y) := by
  simp only [decode, fieldOp_nibbles, fieldX_nibbles, fieldY_nibbles, fieldN_nibbles, if_true]

theorem decode_sneReg (x y : Nibble) : decode (0x9#4 ++ x ++ y ++ 0x0#4) = .instr (.sneReg x y) := by
  simp only [decode, fieldOp_nibbles, fieldX_nibbles, fieldY_nibbles, fieldN_nibbles, if_true]

/-! ## Targets (R86, R92) -/

@[simp] theorem zext16_toNat (nnn : Addr12) : (zext16 nnn).toNat = nnn.toNat :=
  BitVec.toNat_setWidth_of_le (by decide)

/-- NNN + V0 fits in 16 bits, so BNNN's target is the exact sum. -/
theorem u16_addr_add_byte_toNat (nnn : Addr12) (b : Byte) :
    (u16 (nnn.toNat + b.toNat)).toNat = nnn.toNat + b.toNat := by
  rw [u16_toNat]
  omega

/-- A PC above 0xFFE halts the next step at its fetch (R34, R44). -/
theorem fetchHalts_of_far {t : State} (running : t.run = .running) (far : 0xFFE < t.pc.toNat) : FetchHalts t := by
  have fails : fetchDecode t = .error (.memoryOutOfBounds (max t.pc.toNat 0x1000)) := by
    rw [fetchDecode_eq, if_pos far]
  exact step_of_fetchDecode_error running fails

/-! ## Jump, call and return -/

theorem exec_jp (nnn : Addr12) (s : State) : exec (.jp nnn) s = .next (s.setPc (zext16 nnn)) := rfl

theorem exec_jpV0 (nnn : Addr12) (s : State) :
    exec (.jpV0 nnn) s = .next (s.setPc (u16 (nnn.toNat + (s.getV 0).toNat))) := rfl

theorem exec_call_of_room (nnn : Addr12) {s : State} (room : s.sp.val < 16) :
    exec (.call nnn) s = .next ({ s with
      stack := s.stack.set s.sp.val (s.pc + 2)
      sp := ⟨s.sp.val + 1, Nat.succ_lt_succ room⟩ }.setPc (zext16 nnn)) := by
  rw [exec, execCall, State.push_of_lt _ _ room, u16_add_two]
  rfl

/-- A stack that holds something gives up the slot below SP and keeps every slot's value (R23, R85). -/
theorem State.pop_of_sp_eq_succ {s : State} {k : Fin 16} (sp : s.sp.val = k.val + 1) :
    s.pop = some (s.stack[k.val], { s with sp := k.castSucc }) := by
  rw [State.pop_of_pos s (by omega)]
  simp only [sp, Nat.add_sub_cancel]
  rfl

theorem exec_ret_of_sp_eq_succ {s : State} {k : Fin 16} (sp : s.sp.val = k.val + 1) :
    exec .ret s = .next ({ s with sp := k.castSucc }.setPc s.stack[k.val]) := by
  rw [exec, execRet, State.pop_of_sp_eq_succ sp]
  rfl

/-! ## Skips (R84) -/

/-- An instruction that is a skip on `b` skips when the condition that `b` tests holds. -/
theorem skipsWhen_of_exec_eq_skipIf {i : Instr} {s : State} {b : Bool} {c : Prop} (skips : exec i s = skipIf b s)
    (tests : b = true ↔ c) : SkipsWhen i s c := by
  constructor
  · intro holds
    rw [skips, skipIf_eq, if_pos (tests.2 holds), u16_add_four]
    rfl
  · intro fails
    rw [skips, skipIf_eq, if_neg (mt tests.1 fails), u16_add_two]
    rfl

end Sys2Proof.Machine

namespace Sys2Proof.Proofs

open Sys2Proof.Machine

/-- Settles O29: both targets are exact because they fit in 16 bits, and a far one fails the bound of the fetch. -/
theorem jumpsReachTheirTargets : Obligations.JumpsReachTheirTargets := by
  intro nnn s
  exact ⟨decode_jp nnn, decode_jpV0 nnn, ⟨_, exec_jp nnn s, zext16_toNat nnn, rfl⟩,
    ⟨_, exec_jpV0 nnn s, u16_addr_add_byte_toNat nnn (s.getV 0), rfl,
      fun running far => fetchHalts_of_far running far⟩⟩

/-- Settles O30: a full stack fails the call's own check; otherwise the push writes the slot at SP alone. -/
theorem callPushesReturnAddress : Obligations.CallPushesReturnAddress := by
  intro nnn s
  refine ⟨decode_call nnn, ?full, ?room⟩
  case full =>
    intro full
    exact exec_of_instrFault (if_pos full)
  case room =>
    intro room
    refine ⟨_, exec_call_of_room nnn room, rfl, zext16_toNat nnn, ?slots, rfl⟩
    intro k
    rw [State.setPc_stack, Vector.getElem_set]
    exact if_congr eq_comm rfl rfl

/-- Settles O31: an empty stack fails the return's own check; otherwise the slot below SP is popped, and a far
address fails the bound of the fetch. -/
theorem returnPopsAddress : Obligations.ReturnPopsAddress := by
  intro s
  refine ⟨decode_ret, ?empty, ?filled⟩
  case empty =>
    intro empty
    exact exec_of_instrFault (if_pos empty)
  case filled =>
    intro k sp
    exact ⟨_, exec_ret_of_sp_eq_succ sp, rfl, rfl, rfl,
      fun running far => fetchHalts_of_far running far⟩

/-- Settles O34: each of the four is a skip on the Boolean test of its condition. -/
theorem registerSkipsFollowTheirConditions : Obligations.RegisterSkipsFollowTheirConditions := by
  intro x y nn s
  exact ⟨decode_seImm x nn, decode_sneImm x nn, decode_seReg x y, decode_sneReg x y,
    skipsWhen_of_exec_eq_skipIf rfl beq_iff_eq, skipsWhen_of_exec_eq_skipIf rfl bne_iff_ne,
    skipsWhen_of_exec_eq_skipIf rfl beq_iff_eq, skipsWhen_of_exec_eq_skipIf rfl bne_iff_ne⟩

end Sys2Proof.Proofs
end

section
/-! Register loads and arithmetic (spec/42_alu.md R97 to R107): what the decoder answers for their words, the flagged
results as byte arithmetic, the two shapes of effect that these instructions share, and the statements of the family
that say it. -/

namespace Sys2Proof.Machine

open Sys2Proof.Claims

/-! ## Decoding (R56, R57) -/

theorem decode_ldImm (x : Nibble) (nn : Byte) : decode (0x6#4 ++ x ++ nn) = .instr (.ldImm x nn) := by
  simp only [decode, fieldOp_byte, fieldX_byte, fieldNN_byte]

theorem decode_addImm (x : Nibble) (nn : Byte) : decode (0x7#4 ++ x ++ nn) = .instr (.addImm x nn) := by
  simp only [decode, fieldOp_byte, fieldX_byte, fieldNN_byte]

theorem decode_page8 (x y n : Nibble) : decode (0x8#4 ++ x ++ y ++ n) = decodePage8 (0x8#4 ++ x ++ y ++ n) := by
  simp only [decode, fieldOp_nibbles]

theorem decode_ldReg (x y : Nibble) : decode (0x8#4 ++ x ++ y ++ 0x0#4) = .instr (.ldReg x y) := by
  simp only [decode_page8, decodePage8, fieldX_nibbles, fieldY_nibbles, fieldN_nibbles]

theorem decode_or (x y : Nibble) : decode (0x8#4 ++ x ++ y ++ 0x1#4) = .instr (.or x y) := by
  simp only [decode_page8, decodePage8, fieldX_nibbles, fieldY_nibbles, fieldN_nibbles]

theorem decode_and (x y : Nibble) : decode (0x8#4 ++ x ++ y ++ 0x2#4) = .instr (.and x y) := by
  simp only [decode_page8, decodePage8, fieldX_nibbles, fieldY_nibbles, fieldN_nibbles]

theorem decode_xor (x y : Nibble) : decode (0x8#4 ++ x ++ y ++ 0x3#4) = .instr (.xor x y) := by
  simp only [decode_page8, decodePage8, fieldX_nibbles, fieldY_nibbles, fieldN_nibbles]

theorem decode_addReg (x y : Nibble) : decode (0x8#4 ++ x ++ y ++ 0x4#4) = .instr (.addReg x y) := by
  simp only [decode_page8, decodePage8, fieldX_nibbles, fieldY_nibbles, fieldN_nibbles]

theorem decode_sub (x y : Nibble) : decode (0x8#4 ++ x ++ y ++ 0x5#4) = .instr (.sub x y) := by
  simp only [decode_page8, decodePage8, fieldX_nibbles, fieldY_nibbles, fieldN_nibbles]

theorem decode_shr (x y : Nibble) : decode (0x8#4 ++ x ++ y ++ 0x6#4) = .instr (.shr x y) := by
  simp only [decode_page8, decodePage8, fieldX_nibbles, fieldY_nibbles, fieldN_nibbles]

theorem decode_subn (x y : Nibble) : decode (0x8#4 ++ x ++ y ++ 0x7#4) = .instr (.subn x y) := by
  simp only [decode_page8, decodePage8, fieldX_nibbles, fieldY_nibbles, fieldN_nibbles]

theorem decode_shl (x y : Nibble) : decode (0x8#4 ++ x ++ y ++ 0xE#4) = .instr (.shl x y) := by
  simp only [decode_page8, decodePage8, fieldX_nibbles, fieldY_nibbles, fieldN_nibbles]

/-! ## Results and flags as byte arithmetic (R95, R103 to R107) -/

theorem u8_add (a b : Byte) : u8 (a.toNat + b.toNat) = a + b := rfl

theorem flagByte_toNat (b : Bool) : (flagByte b).toNat = b.toNat := by
  cases b <;> rfl

theorem flagByte_decide (p : Prop) [Decidable p] : flagByte (decide p) = if p then 1 else 0 := by
  by_cases h : p <;> simp [flagByte, h]

theorem addCarry_fst (a b : Byte) : (addCarry a b).1 = a + b := u8_add a b

theorem addCarry_flag (a b : Byte) :
    flagByte (addCarry a b).2 = if 0xFF < a.toNat + b.toNat then 1 else 0 :=
  flagByte_decide _

theorem subNoBorrow_fst (a b : Byte) : (subNoBorrow a b).1 = a - b := by
  apply BitVec.eq_of_toNat_eq
  rw [subNoBorrow, u8_toNat, BitVec.toNat_sub]
  omega

theorem subNoBorrow_flag (a b : Byte) :
    flagByte (subNoBorrow a b).2 = if a.toNat < b.toNat then 0 else 1 := by
  simp only [subNoBorrow, flagByte_decide, ge_iff_le, ← not_lt, ite_not]

theorem shiftRight_fst (a : Byte) : (shiftRight a).1 = a >>> 1 := by
  apply BitVec.eq_of_toNat_eq
  rw [shiftRight, u8_toNat, BitVec.toNat_ushiftRight, Nat.shiftRight_eq_div_pow]
  omega

theorem shiftRight_flag (a : Byte) : flagByte (shiftRight a).2 = a &&& 1 := by
  apply BitVec.eq_of_toNat_eq
  have bit : (a &&& 1).toNat = a.toNat % 2 := by rw [BitVec.toNat_and]; exact Nat.and_one_is_mod _
  rw [bit, flagByte_toNat, shiftRight]
  rcases Nat.mod_two_eq_zero_or_one a.toNat with h | h <;> simp [h]

theorem shiftLeft_fst (a : Byte) : (shiftLeft a).1 = a <<< 1 := by
  apply BitVec.eq_of_toNat_eq
  rw [shiftLeft, u8_toNat, BitVec.toNat_shiftLeft, Nat.shiftLeft_eq]

theorem shiftLeft_flag (a : Byte) : flagByte (shiftLeft a).2 = a >>> 7 := by
  apply BitVec.eq_of_toNat_eq
  have bit : (a >>> 7).toNat = a.toNat / 128 := by
    rw [BitVec.toNat_ushiftRight, Nat.shiftRight_eq_div_pow]
  have zeroOrOne : a.toNat / 128 = 0 ∨ a.toNat / 128 = 1 := by omega
  rw [bit, flagByte_toNat, shiftLeft]
  rcases zeroOrOne with h | h <;> simp [h]

/-! ## The two shapes of effect (R96) -/

/-- What `SameOutsideV` leaves free is V, PC and the counter of draws. -/
theorem sameOutsideV_update (s : State) (v : Vector Byte 16) (pc : Word) (draws : Nat) :
    SameOutsideV s { s with v := v, pc := pc, draws := draws } :=
  ⟨rfl, ⟨⟨rfl, fun _ => rfl⟩, rfl, rfl, fun _ => rfl, rfl⟩, fun _ _ => rfl, fun _ => rfl⟩

/-- An instruction that is `writeV` of `b` writes `b` to V[x] alone. -/
theorem writesV_of_exec_eq_writeV {i : Instr} {s : State} {x : Nibble} {b : Byte} (writes : exec i s = writeV x b s) :
    WritesV i s x b := by
  refine ⟨_, writes.trans (finish_eq _ _), ?value, ?others, sameOutsideV_update s _ _ _, rfl, u16_toNat _⟩
  case value => rw [State.getV_setPc, State.getV_setV_self]
  case others =>
    intro r other
    rw [State.getV_setPc, State.getV_setV_ne s b other]

/-- An instruction that is `writeVFlag` of a result and a flag writes the result to V[x] and then the flag to VF. -/
theorem writesVFlag_of_exec_eq_writeVFlag {i : Instr} {s : State} {x : Nibble} {p : Byte × Bool} {b flag : Byte}
    (writes : exec i s = writeVFlag x p s) (result : p.1 = b) (flagged : flagByte p.2 = flag) :
    WritesVFlag i s x b flag := by
  refine ⟨_, writes.trans (finish_eq _ _), ?value, ?vf, ?others, sameOutsideV_update s _ _ _, rfl, u16_toNat _⟩
  case value =>
    intro notFlag
    rw [State.getV_setPc, State.getV_setVFlag, if_neg notFlag, if_pos rfl, result]
  case vf => rw [State.getV_setPc, State.getV_setVFlag, if_pos rfl, flagged]
  case others =>
    intro r other
    obtain ⟨notX, notFlag⟩ := not_or.1 other
    rw [State.getV_setPc, State.getV_setVFlag, if_neg notFlag, if_neg notX]

end Sys2Proof.Machine

namespace Sys2Proof.Proofs

open Sys2Proof.Machine

/-- Settles O36: each of the three is a plain write of V[X]; the sum narrowed from Nat is the sum of bytes. -/
theorem loadsAndAddImmediate : Obligations.LoadsAndAddImmediate := by
  intro x y nn s
  refine ⟨decode_ldImm x nn, decode_addImm x nn, decode_ldReg x y, writesV_of_exec_eq_writeV rfl, ?sum,
    writesV_of_exec_eq_writeV rfl⟩
  case sum =>
    rw [← u8_add]
    exact writesV_of_exec_eq_writeV rfl

/-- Settles O37: each of the three is a plain write of V[X]. -/
theorem logicWritesNoFlag : Obligations.LogicWritesNoFlag := by
  intro x y s
  exact ⟨decode_or x y, decode_and x y, decode_xor x y, writesV_of_exec_eq_writeV rfl,
    writesV_of_exec_eq_writeV rfl, writesV_of_exec_eq_writeV rfl⟩

/-- Settles O38: the flagged write of the sum and its carry. -/
theorem addRegisterSetsCarry : Obligations.AddRegisterSetsCarry := by
  intro x y s
  exact ⟨decode_addReg x y, writesVFlag_of_exec_eq_writeVFlag rfl (addCarry_fst _ _) (addCarry_flag _ _)⟩

/-- Settles O39: the flagged write of a difference and its no-borrow flag, with the operands in either order. -/
theorem subtractionsSetNoBorrow : Obligations.SubtractionsSetNoBorrow := by
  intro x y s
  exact ⟨decode_sub x y, decode_subn x y,
    writesVFlag_of_exec_eq_writeVFlag rfl (subNoBorrow_fst _ _) (subNoBorrow_flag _ _),
    writesVFlag_of_exec_eq_writeVFlag rfl (subNoBorrow_fst _ _) (subNoBorrow_flag _ _)⟩

/-- Settles O40: the flagged write of V[X] moved by one and the bit that falls out. -/
theorem shiftsSetTheBitOut : Obligations.ShiftsSetTheBitOut := by
  intro x y s
  exact ⟨decode_shr x y, decode_shl x y,
    writesVFlag_of_exec_eq_writeVFlag rfl (shiftRight_fst _) (shiftRight_flag _),
    writesVFlag_of_exec_eq_writeVFlag rfl (shiftLeft_fst _) (shiftLeft_flag _)⟩

end Sys2Proof.Proofs
end

section
/-! The address register and the memory transfers (spec/43_index_memory.md R116 to R123): what the decoder answers
for their words, the effect of a write of I, of a store at I and of a load from I, what an outcome or a host operation
leaves of a part of the state, and the statements of the family that say it. -/

namespace Sys2Proof.Machine

open Sys2Proof.Safety Sys2Proof.Claims

/-! ## Decoding (R56, R57) -/

theorem decode_ldI (nnn : Addr12) : decode (0xA#4 ++ nnn) = .instr (.ldI nnn) := by
  simp only [decode, fieldOp_addr, fieldNNN_addr]

theorem decode_pageF (x : Nibble) (nn : Byte) : decode (0xF#4 ++ x ++ nn) = decodePageF (0xF#4 ++ x ++ nn) := by
  simp only [decode, fieldOp_byte]
  rfl

theorem decode_addI (x : Nibble) : decode (0xF#4 ++ x ++ 0x1E#8) = .instr (.addI x) := by
  simp only [decode_pageF, decodePageF, fieldX_byte, fieldNN_byte]

theorem decode_ldF (x : Nibble) : decode (0xF#4 ++ x ++ 0x29#8) = .instr (.ldF x) := by
  simp only [decode_pageF, decodePageF, fieldX_byte, fieldNN_byte]

theorem decode_ldB (x : Nibble) : decode (0xF#4 ++ x ++ 0x33#8) = .instr (.ldB x) := by
  simp only [decode_pageF, decodePageF, fieldX_byte, fieldNN_byte]

theorem decode_storeRegs (x : Nibble) : decode (0xF#4 ++ x ++ 0x55#8) = .instr (.storeRegs x) := by
  simp only [decode_pageF, decodePageF, fieldX_byte, fieldNN_byte]

theorem decode_loadRegs (x : Nibble) : decode (0xF#4 ++ x ++ 0x65#8) = .instr (.loadRegs x) := by
  simp only [decode_pageF, decodePageF, fieldX_byte, fieldNN_byte]

/-! ## What an outcome leaves of a part of the state

`Leaves f s o`: when the outcome `o` of something done in `s` answers a next state, `f` reads it as it read `s`. A
shared operation leaves `f` when the updates it can make do. -/

/-- The next state that `o` answers, if it answers one, has the same `f` as `s`. -/
def Leaves {α : Type} (f : State → α) (s : State) (o : Host.Outcome State Fault Refusal) : Prop :=
  ∀ t, o = .next t → f t = f s

section Leaves

variable {α β : Type} {f : State → α} {s : State}

theorem leaves_next {t : State} (same : f t = f s) : Leaves f s (.next t) := by
  rintro _ ⟨⟩
  exact same

theorem leaves_raise {e : Fault} (same : f (s.setRun (.halted e)) = f s) : Leaves f s (raise e s) :=
  leaves_next same

theorem leaves_finish {n : NextPc} {t : State} (same : f (t.setPc (n.from t.pc)) = f s) : Leaves f s (finish n t) :=
  leaves_next same

theorem leaves_orRaise {r : Except Fault β} {k : β → Host.Outcome State Fault Refusal}
    (halts : ∀ e, f (s.setRun (.halted e)) = f s) (rest : ∀ b, Leaves f s (k b)) : Leaves f s (orRaise s r k) := by
  cases r with
  | error e => exact leaves_raise (halts e)
  | ok b => exact rest b

theorem leaves_execRet (halts : ∀ e, f (s.setRun (.halted e)) = f s)
    (pops : ∀ sp pc, f { s with sp := sp, pc := pc } = f s) : Leaves f s (execRet s) := by
  rcases Nat.eq_zero_or_pos s.sp.val with empty | filled
  · rw [execRet, State.pop_of_empty s (Fin.ext empty)]
    exact leaves_raise (halts _)
  · rw [execRet, State.pop_of_pos s filled]
    exact leaves_finish (pops _ _)

theorem leaves_execCall {nnn : Addr12} (halts : ∀ e, f (s.setRun (.halted e)) = f s)
    (pushes : ∀ stack sp pc, f { s with stack := stack, sp := sp, pc := pc } = f s) : Leaves f s (execCall nnn s) := by
  by_cases room : s.sp.val < 16
  · rw [execCall, State.push_of_lt s _ room]
    exact leaves_finish (pushes _ _ _)
  · rw [execCall, State.push_of_full s _ (Fin.ext (by omega))]
    exact leaves_raise (halts _)

end Leaves

/-- R117, one instruction at a time: it leaves I, or it is one of the three that write it. -/
theorem exec_leaves_i_or_writes_i (i : Instr) (s : State) :
    Leaves State.i s (exec i s) ∨ (∃ nnn, i = .ldI nnn) ∨ (∃ x, i = .addI x) ∨ ∃ x, i = .ldF x := by
  cases i with
  | ldI nnn => exact .inr (.inl ⟨nnn, rfl⟩)
  | addI x => exact .inr (.inr (.inl ⟨x, rfl⟩))
  | ldF x => exact .inr (.inr (.inr ⟨x, rfl⟩))
  | ret => exact .inl (leaves_execRet (fun _ => rfl) fun _ _ => rfl)
  | call nnn => exact .inl (leaves_execCall (fun _ => rfl) fun _ _ _ => rfl)
  | skp x | sknp x | drw x y n | ldB x | storeRegs x | loadRegs x =>
    exact .inl (leaves_orRaise (fun _ => rfl) fun _ => leaves_finish rfl)
  | _ => exact .inl (leaves_finish rfl)

/-! ## What a step outside Running and a host operation other than step can do (R73, R74, R168) -/

/-- A step that does not run an instruction changes nothing or resolves a key wait. -/
theorem step_of_not_running {s t : State} (h : s.run ≠ .running) (stepped : step s = .next t) :
    t = s ∨ ∃ x k, t = resolveKey x k s := by
  cases run : s.run with
  | running => exact absurd run h
  | halted e =>
    rw [step_of_halted run] at stepped
    cases stepped
    exact .inl rfl
  | blockedOnKey x =>
    rw [step_of_blocked run] at stepped
    rcases stepBlocked_next stepped with ⟨k, -, resolved⟩ | ⟨-, same⟩
    · exact .inr ⟨x, k, resolved⟩
    · exact .inl same

theorem keyEvent_fst (k : Int) (pressed : Bool) (s : State) :
    (s.keyEvent k pressed).1 = s ∨ ∃ j, (s.keyEvent k pressed).1 = s.setKey j pressed := by
  unfold State.keyEvent
  split
  · exact .inr ⟨_, rfl⟩
  · exact .inl rfl

theorem loadRom_fst_of_too_long {b : List Byte} (h : ¬ b.length ≤ 3584) (s : State) : (s.loadRom b).1 = s := by
  have rejected : ¬ romOk b = true := by simpa [romOk] using h
  rw [State.loadRom, if_neg rejected]

/-- A host operation that is no step and does not restart changes nothing, or is a tick or a key event. -/
theorem hostOp_of_not_step_of_not_restarts {op : HostOp} (s : State) (notStep : op ≠ .step) (h : ¬ Restarts op) :
    (hostOp op s).1 = s ∨ (hostOp op s).1 = s.tick ∨ ∃ k pressed, (hostOp op s).1 = s.setKey k pressed := by
  cases op with
  | step => exact absurd rfl notStep
  | reset => exact absurd (.inl rfl) h
  | loadRom b => exact .inl (loadRom_fst_of_too_long (fun fits => h (.inr ⟨b, rfl, fits⟩)) s)
  | tick => exact .inr (.inl rfl)
  | keyDown k => exact (keyEvent_fst k true s).imp_right fun ⟨j, set⟩ => .inr ⟨j, true, set⟩
  | keyUp k => exact (keyEvent_fst k false s).imp_right fun ⟨j, set⟩ => .inr ⟨j, false, set⟩
  | readDisplay | readMemory | readPc | readRegisters | disassemble start stop => exact .inl rfl

/-! ## Writing I (R118 to R120) -/

theorem finish_default (s : State) : finish .default s = .next (s.setPc (s.pc + 2)) := by
  rw [finish_eq, NextPc.from_default, u16_add_two]

/-- An instruction that sets I and goes on changes I and PC alone. -/
theorem exec_of_finish_setI {i : Instr} {s : State} {w : Word} {n : Nat}
    (writes : exec i s = finish .default (s.setI w)) (value : w.toNat = n) :
    ∃ t, exec i s = .next t ∧ t.i.toNat = n ∧ t = { s with i := t.i, pc := s.pc + 2 } :=
  ⟨_, writes.trans (finish_default _), value, rfl⟩

/-- R120's address fits in 16 bits for the full byte V[X], so FX29's value is exact. -/
theorem u16_glyph_address_toNat (b : Byte) : (u16 (fontBase + 5 * b.toNat)).toNat = 0x050 + 5 * b.toNat := by
  rw [u16_toNat, fontBase]
  omega

/-! ## Storing at I (R121, R122) -/

/-- An instruction that stores a list at I, inside memory, changes those bytes and PC alone. -/
theorem exec_of_storeAtI_inside {i : Instr} {s : State} {bs : List Byte} (wf : s.mem.wf)
    (stores : exec i s = storeAtI bs s) (pos : 0 < bs.length) (inside : s.i.toNat + bs.length ≤ 0x1000) :
    ∃ t, exec i s = .next t ∧ (∀ j (hj : j < bs.length), t.mem.read (s.i.toNat + j) = bs[j]) ∧
      (∀ a, a < s.i.toNat ∨ s.i.toNat + bs.length ≤ a → t.mem.read a = s.mem.read a) ∧
      t = { s with mem := t.mem, pc := s.pc + 2 } := by
  have completes := storeAtI_of_inside pos (boundsFault_eq_none.2 (.inr inside))
  exact ⟨_, (stores.trans completes).trans (finish_default _),
    fun _ hj => Memory.read_writeBytes_inside wf.1 _ bs hj,
    fun a outside => Memory.read_writeBytes_outside _ _ a bs outside, rfl⟩

/-- The three bytes that FX33 stores are the decimal digits of the byte. -/
theorem bcd_digits (b : Byte) : ∃ h d o : Byte, bcd b = [h, d, o] ∧
    h.toNat * 100 + d.toNat * 10 + o.toNat = b.toNat ∧ h.toNat ≤ 9 ∧ d.toNat ≤ 9 ∧ o.toNat ≤ 9 := by
  refine ⟨_, _, _, rfl, ?_⟩
  simp only [u8_toNat]
  omega

/-! ## Loading from I (R123) -/

/-- Entry j of the bytes read, or the default past their end. -/
theorem Memory.getD_readBytes (m : Memory) (a n j : Nat) (b : Byte) :
    (m.readBytes a n).getD j b = if j < n then m.read (a + j) else b := by
  by_cases h : j < n
  · have hj : j < (m.readBytes a n).length := by rwa [Memory.length_readBytes]
    rw [if_pos h, List.getD_eq_getElem _ _ hj, Memory.getElem_readBytes]
  · rw [if_neg h, List.getD_eq_default _ _ (by rw [Memory.length_readBytes]; omega)]

theorem exec_loadRegs_of_inside {x : Nibble} {s : State} (inside : s.i.toNat + x.toNat ≤ 0xFFF) :
    exec (.loadRegs x) s =
      .next ((s.setRegs (s.mem.readBytes s.i.toNat (x.toNat + 1))).setPc (s.pc + 2)) := by
  have passes : boundsFault s.i.toNat (x.toNat + 1) = none := boundsFault_eq_none.2 (.inr (by omega))
  exact (execLoadRegs_of_inside passes).trans (finish_default _)

end Sys2Proof.Machine

namespace Sys2Proof.Proofs

open Sys2Proof.Machine Sys2Proof.Safety

/-- Settles O55: by the cases of the instruction, of the host operation and of the step outside Running; only the
three writers' updates reach I. -/
theorem addressRegisterChangesOnlyByItsWriters : Obligations.AddressRegisterChangesOnlyByItsWriters := by
  refine ⟨?instructions, ?hostOps, ?notRunning⟩
  case instructions =>
    intro i s t executed changed
    exact (exec_leaves_i_or_writes_i i s).resolve_left fun leaves => changed (leaves t executed)
  case hostOps =>
    intro op s notStep notRestart
    rcases hostOp_of_not_step_of_not_restarts s notStep notRestart with after | after | ⟨k, pressed, after⟩ <;>
      rw [after] <;> rfl
  case notRunning =>
    intro s t notRunning stepped
    rcases step_of_not_running notRunning stepped with rfl | ⟨x, k, rfl⟩ <;> rfl

/-- Settles O43: each of the three sets I and goes on, and the value set is the one that the rule names. -/
theorem addressRegisterWrites : Obligations.AddressRegisterWrites := by
  intro nnn x s
  exact ⟨decode_ldI nnn, decode_addI x, decode_ldF x, exec_of_finish_setI rfl (zext16_toNat nnn),
    exec_of_finish_setI rfl (u16_toNat _), exec_of_finish_setI rfl (u16_glyph_address_toNat _)⟩

/-- Settles O44: the check is that of a three-byte access; when it passes, the store of the digits at I. -/
theorem bcdStoresThreeDigits : Obligations.BcdStoresThreeDigits := by
  intro x s wf
  refine ⟨decode_ldB x, ?outside, ?inside⟩
  case outside =>
    intro above
    exact exec_of_instrFault (boundsFault_eq_some.2 ⟨by omega, rfl⟩)
  case inside =>
    intro inside
    obtain ⟨h, d, o, digits, value⟩ := bcd_digits (s.getV x)
    have stores : exec (.ldB x) s = storeAtI [h, d, o] s := by rw [← digits]; rfl
    obtain ⟨t, completes, stored, others, frame⟩ :=
      exec_of_storeAtI_inside wf stores (by simp) (by simp only [List.length_cons, List.length_nil]; omega)
    exact ⟨t, completes, ⟨h, d, o, stored 0 (by simp), stored 1 (by simp), stored 2 (by simp), value⟩, others, frame⟩

/-- Settles O45: the check is that of an access of X + 1 bytes; when it passes, the store of V0..VX at I. -/
theorem storeRegistersCopiesToMemory : Obligations.StoreRegistersCopiesToMemory := by
  intro x s wf
  have length := s.length_regsUpTo x
  refine ⟨decode_storeRegs x, ?outside, ?inside⟩
  case outside =>
    intro above
    exact exec_of_instrFault (boundsFault_eq_some.2 ⟨by omega, rfl⟩)
  case inside =>
    intro inside
    obtain ⟨t, completes, stored, others, frame⟩ :=
      exec_of_storeAtI_inside (i := .storeRegs x) wf rfl (by omega) (by omega)
    refine ⟨t, completes, ?registers, fun a outside => others a (by omega), frame⟩
    intro r upToX
    rw [stored r.toNat (by omega), State.getElem_regsUpTo]

/-- Settles O46: the check is that of an access of X + 1 bytes; when it passes, register r takes byte r of those read,
and a register past their end keeps its value. -/
theorem loadRegistersCopiesFromMemory : Obligations.LoadRegistersCopiesFromMemory := by
  intro x s
  refine ⟨decode_loadRegs x, ?outside, ?inside⟩
  case outside =>
    intro above
    exact exec_of_instrFault (boundsFault_eq_some.2 ⟨by omega, rfl⟩)
  case inside =>
    intro inside
    refine ⟨_, exec_loadRegs_of_inside inside, ?loaded, ?kept, rfl⟩
    case loaded =>
      intro r upToX
      rw [State.getV_setPc, State.getV_setRegs, Memory.getD_readBytes, if_pos (by omega)]
    case kept =>
      intro r aboveX
      rw [State.getV_setPc, State.getV_setRegs, Memory.getD_readBytes, if_neg (by omega)]

end Sys2Proof.Proofs
end

section
/-! The display and the sprite-draw engine (spec/44_display.md R133 to R142): what the decoder answers for 00E0 and
DXYN, the sprite that DXYN draws in a state, which instructions leave the display, and the statements of the family
that say it. -/

namespace Sys2Proof.Machine

open Sys2Proof.Claims

/-! ## Decoding (R56, R57) -/

theorem decode_cls : decode 0x00E0 = .instr .cls := rfl

theorem decode_drw (x y n : Nibble) : decode (0xD#4 ++ x ++ y ++ n) = .instr (.drw x y n) := by
  simp only [decode, fieldOp_nibbles, fieldX_nibbles, fieldY_nibbles, fieldN_nibbles]

/-! ## Clearing (R133) -/

theorem exec_cls (s : State) : exec .cls s = .next ((s.setDisplay Display.clear).setPc (s.pc + 2)) :=
  finish_default _

/-! ## Drawing (R134 to R139) -/

/-- The display after DXYN has drawn its sprite in `s`, and whether a cell that was on was flipped. -/
def drawSprite (x y n : Nibble) (s : State) : Display × Bool :=
  drawRows ((s.getV x).toNat % 64) ((s.getV y).toNat % 32) (s.mem.readBytes s.i.toNat n.toNat) (s.display, false)

theorem exec_drw_of_not_readable {x y n : Nibble} {s : State} (h : ¬ SpriteReadable n s) :
    exec (.drw x y n) s = raise (.memoryOutOfBounds (max s.i.toNat 0x1000)) s := by
  rw [exec, execDrw, spriteRows_of_not_readable n s h, orRaise_error]

theorem exec_drw_of_readable {x y n : Nibble} {s : State} (h : SpriteReadable n s) :
    exec (.drw x y n) s = .next (((s.setDisplay (drawSprite x y n s).1).setV 0xF
      (flagByte (drawSprite x y n s).2)).setPc (s.pc + 2)) := by
  rw [exec, execDrw, spriteRows_of_readable n s h, orRaise_ok]
  exact finish_default _

/-- The rows that DXYN reads at I have a bit at a cell exactly where the sprite has one. -/
theorem rowsBit_readBytes (x y n : Nibble) (s : State) (cx : Fin 64) (cy : Fin 32) :
    RowsBit ((s.getV x).toNat % 64) ((s.getV y).toNat % 32) (s.mem.readBytes s.i.toNat n.toNat) cx cy ↔
      SpriteBit x y n s cx cy := by
  simp only [RowsBit, SpriteBit, Memory.length_readBytes, Memory.getElem_readBytes, exists_prop]

theorem drawSprite_cell_of_spriteBit {x y n : Nibble} {s : State} {cx : Fin 64} {cy : Fin 32}
    (h : SpriteBit x y n s cx cy) : (drawSprite x y n s).1.cell cx cy = !s.display.cell cx cy := by
  obtain ⟨cells, -⟩ := drawRows_spec _ (s.mem.readBytes s.i.toNat n.toNat) _ (s.display, false)
  rw [drawSprite, cells, if_pos ((rowsBit_readBytes ..).2 h)]

theorem drawSprite_cell_of_not_spriteBit {x y n : Nibble} {s : State} {cx : Fin 64} {cy : Fin 32}
    (h : ¬ SpriteBit x y n s cx cy) : (drawSprite x y n s).1.cell cx cy = s.display.cell cx cy := by
  obtain ⟨cells, -⟩ := drawRows_spec _ (s.mem.readBytes s.i.toNat n.toNat) _ (s.display, false)
  rw [drawSprite, cells, if_neg (mt (rowsBit_readBytes ..).1 h)]

/-- The collision of R137: some cell under a sprite bit was on. -/
theorem drawSprite_hit (x y n : Nibble) (s : State) :
    (drawSprite x y n s).2 = true ↔ ∃ cx cy, SpriteBit x y n s cx cy ∧ s.display.cell cx cy = true := by
  obtain ⟨-, hit⟩ := drawRows_spec _ (s.mem.readBytes s.i.toNat n.toNat) _ (s.display, false)
  rw [drawSprite, hit]
  simp only [rowsBit_readBytes, Bool.false_eq_true, false_or]

theorem flagByte_hit_of_on {x y n : Nibble} {s : State}
    (h : ∃ cx cy, SpriteBit x y n s cx cy ∧ s.display.cell cx cy = true) :
    flagByte (drawSprite x y n s).2 = 1 := by
  rw [(drawSprite_hit x y n s).2 h]
  rfl

theorem flagByte_hit_of_off {x y n : Nibble} {s : State}
    (h : ∀ cx cy, SpriteBit x y n s cx cy → s.display.cell cx cy = false) :
    flagByte (drawSprite x y n s).2 = 0 := by
  have noHit : (drawSprite x y n s).2 = false := by
    rw [Bool.eq_false_iff, ne_eq, drawSprite_hit]
    rintro ⟨cx, cy, bit, on⟩
    simp [h cx cy bit] at on
  rw [noHit]
  rfl

/-! ## Who writes the display (R142) -/

/-- R142, one instruction at a time: it leaves the display, or it is one of the two that write it. -/
theorem exec_leaves_display_or_writes_display (i : Instr) (s : State) :
    Leaves State.display s (exec i s) ∨ i = .cls ∨ ∃ x y n, i = .drw x y n := by
  cases i with
  | cls => exact .inr (.inl rfl)
  | drw x y n => exact .inr (.inr ⟨x, y, n, rfl⟩)
  | ret => exact .inl (leaves_execRet (fun _ => rfl) fun _ _ => rfl)
  | call nnn => exact .inl (leaves_execCall (fun _ => rfl) fun _ _ _ => rfl)
  | skp x | sknp x | ldB x | storeRegs x | loadRegs x =>
    exact .inl (leaves_orRaise (fun _ => rfl) fun _ => leaves_finish rfl)
  | _ => exact .inl (leaves_finish rfl)

end Sys2Proof.Machine

namespace Sys2Proof.Proofs

open Sys2Proof.Machine

/-- Settles O49: an unreadable sprite raises at the read of its rows; a readable one is drawn cell by cell, and VF
takes the collision. -/
theorem drawXorsTheSprite : Obligations.DrawXorsTheSprite := by
  intro x y n s
  refine ⟨decode_drw x y n, exec_drw_of_not_readable, ?readable⟩
  case readable =>
    intro readable
    refine ⟨_, exec_drw_of_readable readable, fun _ _ => drawSprite_cell_of_spriteBit,
      fun _ _ => drawSprite_cell_of_not_spriteBit, ?collision, ?noCollision, ?others, rfl⟩
    case collision =>
      intro on
      rw [State.getV_setPc, State.getV_setV_self, flagByte_hit_of_on on]
    case noCollision =>
      intro off
      rw [State.getV_setPc, State.getV_setV_self, flagByte_hit_of_off off]
    case others =>
      intro r notFlag
      rw [State.getV_setPc, State.getV_setV_ne _ _ notFlag, State.getV_setDisplay]

/-- Settles O56: by the cases of the instruction, of the host operation and of the step outside Running; only the two
writers' updates reach the display. -/
theorem displayChangesOnlyByItsWriters : Obligations.DisplayChangesOnlyByItsWriters := by
  refine ⟨?instructions, ?hostOps, ?notRunning⟩
  case instructions =>
    intro i s t executed changed
    exact (exec_leaves_display_or_writes_display i s).resolve_left fun leaves => changed (leaves t executed)
  case hostOps =>
    intro op s notStep notRestart
    rcases hostOp_of_not_step_of_not_restarts s notStep notRestart with after | after | ⟨k, pressed, after⟩ <;>
      rw [after] <;> rfl
  case notRunning =>
    intro s t notRunning stepped
    rcases step_of_not_running notRunning stepped with rfl | ⟨x, k, rfl⟩ <;> rfl

/-- Settles O48: 00E0 sets the display to the cleared one, whose cells are all off. -/
theorem clearTurnsAllCellsOff : Obligations.ClearTurnsAllCellsOff := by
  intro s
  exact ⟨decode_cls, _, exec_cls s, Display.cell_clear, rfl⟩

end Sys2Proof.Proofs
end

section
/-! Timers and keypad (spec/45_timers_keypad.md R143 to R151): what the decoder answers for the key and timer words, the
effect of a tick, of a key event, of the key skips and of FX0A, and the statements of the family that say it. -/

namespace Sys2Proof.Machine

open Sys2Proof.Claims

/-! ## Decoding (R56, R57) -/

theorem decode_skp (x : Nibble) : decode (0xE#4 ++ x ++ 0x9E#8) = .instr (.skp x) := by
  simp only [decode, decodePageE, fieldOp_byte, fieldX_byte, fieldNN_byte]

theorem decode_sknp (x : Nibble) : decode (0xE#4 ++ x ++ 0xA1#8) = .instr (.sknp x) := by
  simp only [decode, decodePageE, fieldOp_byte, fieldX_byte, fieldNN_byte]

theorem decode_ldVxDt (x : Nibble) : decode (0xF#4 ++ x ++ 0x07#8) = .instr (.ldVxDt x) := by
  simp only [decode_pageF, decodePageF, fieldX_byte, fieldNN_byte]

theorem decode_ldVxK (x : Nibble) : decode (0xF#4 ++ x ++ 0x0A#8) = .instr (.ldVxK x) := by
  simp only [decode_pageF, decodePageF, fieldX_byte, fieldNN_byte]

theorem decode_ldDtVx (x : Nibble) : decode (0xF#4 ++ x ++ 0x15#8) = .instr (.ldDtVx x) := by
  simp only [decode_pageF, decodePageF, fieldX_byte, fieldNN_byte]

theorem decode_ldStVx (x : Nibble) : decode (0xF#4 ++ x ++ 0x18#8) = .instr (.ldStVx x) := by
  simp only [decode_pageF, decodePageF, fieldX_byte, fieldNN_byte]

/-! ## The key skips (R143, R144) -/

theorem exec_skp_of_key {x : Nibble} {s : State} {k : Fin 16} (key : (s.getV x).toNat = k.val) :
    exec (.skp x) s = skipIf s.keys[k.val] s := by
  rw [exec, execSkp, keyPressed_of_lt s (key.trans_lt k.isLt), orRaise_ok]
  simp only [key]

theorem exec_sknp_of_key {x : Nibble} {s : State} {k : Fin 16} (key : (s.getV x).toNat = k.val) :
    exec (.sknp x) s = skipIf (!s.keys[k.val]) s := by
  rw [exec, execSknp, keyPressed_of_lt s (key.trans_lt k.isLt), orRaise_ok]
  simp only [key]

/-! ## Timer copies (R146, R147) and the key wait (R148) -/

theorem exec_ldDtVx (x : Nibble) (s : State) :
    exec (.ldDtVx x) s = .next ((s.setDt (s.getV x)).setPc (s.pc + 2)) :=
  finish_default _

theorem exec_ldStVx (x : Nibble) (s : State) :
    exec (.ldStVx x) s = .next ((s.setSt (s.getV x)).setPc (s.pc + 2)) :=
  finish_default _

theorem exec_ldVxK (x : Nibble) (s : State) :
    exec (.ldVxK x) s = .next ((s.setRun (.blockedOnKey x)).setPc (s.pc + 2)) :=
  finish_default _

/-! ## Ticks (R149) -/

theorem tick_eq (s : State) : s.tick = { s with dt := decay s.dt, st := decay s.st } := rfl

theorem decay_of_eq_zero {b : Byte} (zero : b = 0) : decay b = 0 := by
  rw [zero]
  rfl

/-! ## Key events (R150, R151) -/

theorem keyCodeOk_iff (k : Int) : keyCodeOk k = true ↔ 0 ≤ k ∧ k ≤ 15 := by
  simp [keyCodeOk]

theorem keyEvent_of_invalid {k : Int} (invalid : ¬ (0 ≤ k ∧ k ≤ 15)) (pressed : Bool) (s : State) :
    s.keyEvent k pressed = (s, .invalidKeyCode k) :=
  if_neg (mt (keyCodeOk_iff k).1 invalid)

theorem keyEvent_of_valid {k : Int} (valid : 0 ≤ k ∧ k ≤ 15) (pressed : Bool) (s : State) :
    s.keyEvent k pressed = (s.setKey (Fin.ofNat 16 k.toNat) pressed, .ok) :=
  if_pos ((keyCodeOk_iff k).2 valid)

/-- A valid key code is the number of the key that it names. -/
theorem val_ofNat_toNat_eq_iff {k : Int} (valid : 0 ≤ k ∧ k ≤ 15) (j : Fin 16) :
    (Fin.ofNat 16 k.toNat).val = j.val ↔ (j.val : Int) = k := by
  rw [Fin.val_ofNat]
  omega

theorem hostOp_keyEvent (k : Int) (pressed : Bool) (s : State) :
    hostOp (if pressed then .keyDown k else .keyUp k) s = s.keyEvent k pressed := by
  cases pressed <;> rfl

end Sys2Proof.Machine

namespace Sys2Proof.Proofs

open Sys2Proof.Machine

/-- Settles O22: a tick is the decay of both timers, which truncated subtraction clamps at 0. -/
theorem tickDecrementsTimers : Obligations.TickDecrementsTimers := by
  intro s
  exact ⟨s.tick, rfl, tick_eq s, fun _ => decay_toNat s.dt, decay_of_eq_zero, fun _ => decay_toNat s.st,
    decay_of_eq_zero⟩

/-- Settles O24: both operations are the key event of their value, by whether its check of the code passes. -/
theorem keyEventsSetOneKey : Obligations.KeyEventsSetOneKey := by
  intro k s p
  simp only [hostOp_keyEvent]
  refine ⟨fun invalid => keyEvent_of_invalid invalid p s, ?valid⟩
  case valid =>
    intro valid
    refine ⟨_, keyEvent_of_valid valid p s, rfl, ?keys⟩
    intro j
    rw [State.setKey_keys, Vector.getElem_set]
    exact if_congr (val_ofNat_toNat_eq_iff valid j) rfl rfl

/-- Settles O35: a value above 0xF fails the instruction's own check; a key code makes each a skip on the key it
names. -/
theorem keySkipsReadTheNamedKey : Obligations.KeySkipsReadTheNamedKey := by
  intro x s
  refine ⟨decode_skp x, decode_sknp x, ?above, ?code⟩
  case above =>
    intro above
    exact ⟨exec_of_instrFault (if_pos above), exec_of_instrFault (if_pos above)⟩
  case code =>
    intro k key
    exact ⟨skipsWhen_of_exec_eq_skipIf (exec_skp_of_key key) Iff.rfl,
      skipsWhen_of_exec_eq_skipIf (exec_sknp_of_key key) (Bool.not_eq_true' _).to_iff⟩

/-- Settles O51: FX07 is a plain write of V[X]; the other two set one timer and go on. -/
theorem timerCopies : Obligations.TimerCopies := by
  intro x s
  exact ⟨decode_ldVxDt x, decode_ldDtVx x, decode_ldStVx x, writesV_of_exec_eq_writeV rfl, exec_ldDtVx x s,
    exec_ldStVx x s⟩

/-- Settles O52: FX0A leaves the keys, so the next step is in the wait and finds the lowest key that was pressed. -/
theorem waitForKeyThenResolve : Obligations.WaitForKeyThenResolve := by
  intro x s
  refine ⟨decode_ldVxK x, exec_ldVxK x s, ?resolves⟩
  case resolves =>
    intro t k executed pressed lowest
    rw [exec_ldVxK] at executed
    cases executed
    have found := (lowestPressed_eq_some ((s.setRun (.blockedOnKey x)).setPc (s.pc + 2)) k).2 ⟨pressed, lowest⟩
    refine ⟨_, step_of_blocked_with_key rfl found, ?written, rfl, rfl, ?others⟩
    case written =>
      rw [getV_resolveKey, if_pos rfl, u8_toNat]
      omega
    case others =>
      intro r other
      rw [getV_resolveKey, if_neg other, State.getV_setPc, State.getV_setRun]

end Sys2Proof.Proofs
end

section
/-! The read ports and the disassembler (spec/44_display.md R141, spec/46_disassembler.md R153, R157, R159): which byte
a port answers at each index, which record the disassembler lists at each, and the statements of the family that say
it. -/

namespace Sys2Proof.Machine

/-! ## The display port (R141) -/

/-- The display port answers the rows of the display one after another, as one vector of its 32 * 64 cells. -/
theorem readDisplay_eq_flatten (s : State) :
    s.readDisplay = (s.display.flatten.map fun on => if on then (1 : Byte) else 0).toList := by
  simp [State.readDisplay, Vector.flatten, Vector.toList, List.flatMap_def, Function.comp_def]

theorem length_readDisplay (s : State) : s.readDisplay.length = 2048 := by
  rw [readDisplay_eq_flatten, Vector.length_toList]

theorem getElem?_readDisplay (s : State) (x : Fin 64) (y : Fin 32) :
    s.readDisplay[y.val * 64 + x.val]? = some (if s.display.cell x y then 1 else 0) := by
  have inside : y.val * 64 + x.val < 32 * 64 := by omega
  have row : (y.val * 64 + x.val) / 64 = y.val := by omega
  have column : (y.val * 64 + x.val) % 64 = x.val := by omega
  rw [readDisplay_eq_flatten, Vector.getElem?_toList, Vector.getElem?_eq_getElem inside, Vector.getElem_map,
    Vector.getElem_flatten]
  simp only [row, column]
  rfl

/-! ## The memory port (R159) -/

theorem Memory.getElem?_readBytes (m : Memory) (a n : Nat) {j : Nat} (inside : j < n) :
    (m.readBytes a n)[j]? = some (m.read (a + j)) := by
  rw [List.getElem?_eq_getElem (by rwa [Memory.length_readBytes]), Memory.getElem_readBytes]

/-! ## The disassembler (R153, R157) -/

/-- The record of the slot at `a`. -/
def recordAt (m : Memory) (a : Nat) : Record := ⟨u16 a, m.wordAt a, decode (m.wordAt a)⟩

/-- The loop condition of R153 at `a`: the slot is a complete word of the range and of memory. -/
def SlotInside (stop : Int) (a : Nat) : Prop := (a : Int) + 1 < stop ∧ a + 1 ≤ 0xFFF

theorem SlotInside.of_add {stop : Int} {a n : Nat} (h : SlotInside stop (a + n)) : SlotInside stop a := by
  unfold SlotInside at *
  omega

theorem walk_of_inside (m : Memory) {stop : Int} {a : Nat} (fuel : Nat) (h : SlotInside stop a) :
    walk m stop (fuel + 1) a = recordAt m a :: walk m stop fuel (a + 2) :=
  if_pos h

theorem walk_of_not_inside (m : Memory) {stop : Int} {a : Nat} (fuel : Nat) (h : ¬ SlotInside stop a) :
    walk m stop fuel a = [] := by
  cases fuel with
  | zero => rfl
  | succ fuel => exact if_neg h

/-- Every slot before one that is inside is inside too, so the loop gets to it. -/
theorem getElem?_walk_of_inside (m : Memory) {stop : Int} {fuel a k : Nat} (fuelled : k < fuel)
    (h : SlotInside stop (a + 2 * k)) : (walk m stop fuel a)[k]? = some (recordAt m (a + 2 * k)) := by
  induction fuel generalizing a k with
  | zero => omega
  | succ fuel ih =>
    rw [walk_of_inside m fuel h.of_add]
    cases k with
    | zero => rfl
    | succ k =>
      have next : a + 2 * (k + 1) = a + 2 + 2 * k := by omega
      rw [next] at h ⊢
      rw [List.getElem?_cons_succ, ih (by omega) h]

theorem getElem?_walk_of_not_inside (m : Memory) {stop : Int} (fuel : Nat) {a k : Nat}
    (h : ¬ SlotInside stop (a + 2 * k)) : (walk m stop fuel a)[k]? = none := by
  induction k generalizing a fuel with
  | zero => rw [walk_of_not_inside m (a := a) fuel h, List.getElem?_nil]
  | succ k ih =>
    by_cases first : SlotInside stop a
    · cases fuel with
      | zero => rfl
      | succ fuel =>
        have next : a + 2 * (k + 1) = a + 2 + 2 * k := by omega
        rw [walk_of_inside m fuel first, List.getElem?_cons_succ, ih fuel (next ▸ h)]
    · rw [walk_of_not_inside m fuel first, List.getElem?_nil]

theorem disassemble_of_neg (m : Memory) {start : Int} (stop : Int) (neg : start < 0) : disassemble m start stop = [] :=
  if_pos neg

theorem disassemble_natCast (m : Memory) (a : Nat) (stop : Int) :
    disassemble m a stop = walk m stop 2048 a := by
  rw [disassemble, if_neg (by omega), Int.toNat_natCast]

/-- Memory holds 2048 slots, so the fuel of `disassemble` reaches every slot inside. -/
theorem getElem?_disassemble_of_inside (m : Memory) {stop : Int} {a k : Nat} (h : SlotInside stop (a + 2 * k)) :
    (disassemble m a stop)[k]? = some (recordAt m (a + 2 * k)) := by
  have fuelled : k < 2048 := by
    obtain ⟨-, inMemory⟩ := h
    omega
  rw [disassemble_natCast, getElem?_walk_of_inside m fuelled h]

theorem getElem?_disassemble_of_not_inside (m : Memory) {stop : Int} {a k : Nat}
    (h : ¬ SlotInside stop (a + 2 * k)) : (disassemble m a stop)[k]? = none := by
  rw [disassemble_natCast, getElem?_walk_of_not_inside m 2048 h]

end Sys2Proof.Machine

namespace Sys2Proof.Proofs

open Sys2Proof.Machine

/-- Settles O26: each port answers the state it reads, and the two long answers are read off index by index. -/
theorem readPortsShowTheState : Obligations.ReadPortsShowTheState := by
  intro s
  refine ⟨⟨s.readMemory, rfl, Memory.length_readBytes .., ?bytes⟩,
    ⟨s.readDisplay, rfl, length_readDisplay s, getElem?_readDisplay s⟩, rfl,
    ⟨s.readRegisters, rfl, ?registers, rfl, rfl, rfl, rfl, rfl, rfl⟩⟩
  case bytes =>
    intro a inside
    rw [State.readMemory, Memory.getElem?_readBytes _ _ _ inside, Nat.zero_add]
  case registers =>
    intro x
    exact Vector.getElem?_eq_getElem x.isLt

/-- Settles O27: record k is listed exactly when its slot is a complete word of the range and of memory. -/
theorem disassemblyListsCompleteWords : Obligations.DisassemblyListsCompleteWords := by
  intro s start stop
  refine ⟨_, rfl, disassemble_of_neg s.mem stop, ?records⟩
  case records =>
    rintro a rfl k
    have inside_iff : SlotInside stop (a + 2 * k) ↔ (a : Int) + 2 * k + 1 < stop ∧ a + 2 * k + 1 ≤ 0xFFF := by
      simp only [SlotInside, Nat.cast_add, Nat.cast_mul, Nat.cast_ofNat]
    split
    next inside => exact getElem?_disassemble_of_inside s.mem (inside_iff.2 inside)
    next outside => exact getElem?_disassemble_of_not_inside s.mem (mt inside_iff.1 outside)

end Sys2Proof.Proofs
end

section
/-! Faults and boundary errors (spec/60_exceptions.md R164, R166, R168): the fault entry that a halting step makes,
which host operations keep RUN or set it to Running, which are rejected, and the statements of the family that say
it. -/

namespace Sys2Proof.Machine

open Sys2Proof.Claims

/-! ## load_rom by the length of its bytes (R166, R181) -/

theorem loadRom_of_too_long {b : List Byte} (tooLong : 3584 < b.length) (s : State) :
    s.loadRom b = (s, .romTooLarge) :=
  if_neg (mt of_decide_eq_true (Nat.not_le.2 tooLong))

theorem loadRom_of_fits {b : List Byte} (fits : b.length ≤ 3584) (s : State) :
    s.loadRom b = (s.doReset.setMem (s.doReset.mem.writeBytes Config.progBase b), .ok) :=
  if_pos (decide_eq_true fits)

/-! ## RUN after a host operation (R168) -/

theorem hostOp_run_of_restarts {op : HostOp} (restarts : Restarts op) (s : State) :
    (hostOp op s).1.run = .running := by
  rcases restarts with rfl | ⟨b, rfl, fits⟩
  · exact s.doReset_run
  · rw [hostOp, loadRom_of_fits fits, State.setMem_run, State.doReset_run]

theorem hostOp_run_of_not_step_of_not_restarts {op : HostOp} (s : State) (notStep : op ≠ .step)
    (stays : ¬ Restarts op) : (hostOp op s).1.run = s.run := by
  rcases hostOp_of_not_step_of_not_restarts s notStep stays with same | ticked | ⟨k, pressed, set⟩
  · rw [same]
  · rw [ticked, tick_eq]
  · rw [set, State.setKey_run]

theorem hostOp_step_of_halted {s : State} {f : Fault} (halted : s.run = .halted f) :
    hostOp .step s = (s, .stepped (.failure f)) :=
  hostOp_step_of_halts (step_of_halted halted) halted

/-! ## Rejected host operations (R166) -/

/-- The two results by which a call is rejected at the boundary. -/
def IsBoundaryError : HostResult → Prop
  | .romTooLarge | .invalidKeyCode _ => True
  | _ => False

theorem isBoundaryError_iff {r : HostResult} :
    IsBoundaryError r ↔ r = .romTooLarge ∨ ∃ k, r = .invalidKeyCode k := by
  cases r <;> simp [IsBoundaryError]

theorem not_isBoundaryError_doStep (s : State) : ¬ IsBoundaryError s.doStep.2 := by
  unfold State.doStep
  split <;> exact id

theorem invalid_of_isBoundaryError_keyEvent {k : Int} {pressed : Bool} {s : State}
    (rejected : IsBoundaryError (s.keyEvent k pressed).2) : ¬ (0 ≤ k ∧ k ≤ 15) := fun valid => by
  rwa [keyEvent_of_valid valid] at rejected

/-- What a rejected operation is and does: too long a load_rom or an invalid key event, answering the state as it
was. -/
theorem hostOp_of_isBoundaryError {op : HostOp} {s : State} (rejected : IsBoundaryError (hostOp op s).2) :
    (∃ b, op = .loadRom b ∧ 3584 < b.length ∧ hostOp op s = (s, .romTooLarge)) ∨
      ∃ k, (op = .keyDown k ∨ op = .keyUp k) ∧ ¬ (0 ≤ k ∧ k ≤ 15) ∧ hostOp op s = (s, .invalidKeyCode k) := by
  cases op with
  | loadRom b =>
    have tooLong : 3584 < b.length := Nat.lt_of_not_le fun fits => by
      rwa [hostOp, loadRom_of_fits fits] at rejected
    exact .inl ⟨b, rfl, tooLong, loadRom_of_too_long tooLong s⟩
  | keyDown k =>
    have invalid := invalid_of_isBoundaryError_keyEvent rejected
    exact .inr ⟨k, .inl rfl, invalid, keyEvent_of_invalid invalid true s⟩
  | keyUp k =>
    have invalid := invalid_of_isBoundaryError_keyEvent rejected
    exact .inr ⟨k, .inr rfl, invalid, keyEvent_of_invalid invalid false s⟩
  | step => exact absurd rejected (not_isBoundaryError_doStep s)
  | reset | tick | readDisplay | readMemory | readPc | readRegisters | disassemble start stop => exact rejected.elim

theorem hostOp_snd_eq_romTooLarge_iff {op : HostOp} {s : State} :
    (hostOp op s).2 = .romTooLarge ↔ ∃ b, op = .loadRom b ∧ 3584 < b.length := by
  constructor
  · intro result
    rcases hostOp_of_isBoundaryError (isBoundaryError_iff.2 (.inl result)) with
      ⟨b, load, tooLong, -⟩ | ⟨k, -, -, answer⟩
    · exact ⟨b, load, tooLong⟩
    · rw [answer] at result
      cases result
  · rintro ⟨b, rfl, tooLong⟩
    rw [hostOp, loadRom_of_too_long tooLong]

theorem hostOp_snd_eq_invalidKeyCode_iff {op : HostOp} {s : State} {k : Int} :
    (hostOp op s).2 = .invalidKeyCode k ↔ (op = .keyDown k ∨ op = .keyUp k) ∧ ¬ (0 ≤ k ∧ k ≤ 15) := by
  constructor
  · intro result
    rcases hostOp_of_isBoundaryError (isBoundaryError_iff.2 (.inr ⟨k, result⟩)) with
      ⟨b, -, -, answer⟩ | ⟨j, event, invalid, answer⟩
    · rw [answer] at result
      cases result
    · rw [answer] at result
      cases result
      exact ⟨event, invalid⟩
  · rintro ⟨rfl | rfl, invalid⟩ <;> rw [hostOp, keyEvent_of_invalid invalid]

end Sys2Proof.Machine

namespace Sys2Proof.Proofs

open Sys2Proof.Machine Sys2Proof.Safety Sys2Proof.Claims

/-- Settles O13: by whether the operation restarts; of the rest, step is the only one that looks at RUN. -/
theorem haltedIsLeftOnlyByRestart : Obligations.HaltedIsLeftOnlyByRestart := by
  intro s f halted
  refine ⟨hostOp_step_of_halted halted, fun op => ⟨fun restarts => hostOp_run_of_restarts restarts s, ?stays⟩⟩
  case stays =>
    intro stays
    by_cases isStep : op = .step
    · rw [isStep, hostOp_step_of_halted halted, halted]
    · rw [hostOp_run_of_not_step_of_not_restarts s isStep stays, halted]

/-- Settles O17: a step that halts failed one of the checks of R80, whose fault entry is the next state. -/
theorem faultEntryIsPrecise : Obligations.FaultEntryIsPrecise := by
  intro s t f running stepped halted
  refine ⟨?entry, hostOp_step_of_halts stepped halted⟩
  case entry =>
    have checks := stepFaultsExactlyByTheChecks s t running stepped
    cases cause : faultCause s with
    | some e =>
      simp only [cause] at checks
      subst checks
      cases halted
      rfl
    | none =>
      simp only [cause, halted] at checks
      rcases checks with running' | ⟨_, _, -, -, waits⟩
      · cases running'
      · cases waits

/-- Settles O25: both results are boundary errors, and an operation that answers one answers the state it was given. -/
theorem boundaryErrorsChangeNothing : Obligations.BoundaryErrorsChangeNothing := by
  intro op s
  refine ⟨hostOp_snd_eq_romTooLarge_iff, fun k => hostOp_snd_eq_invalidKeyCode_iff, ?unchanged⟩
  case unchanged =>
    intro error
    rcases hostOp_of_isBoundaryError (isBoundaryError_iff.2 error) with ⟨_, -, -, answer⟩ | ⟨_, -, -, answer⟩ <;>
      rw [answer]

end Sys2Proof.Proofs
end

section
/-! What a reset keeps of the state before it (spec/70_reset_and_hazards.md R183), and the statement of the family
that says it. -/

namespace Sys2Proof.Machine

/-- The counter of draws is all that a reset keeps (R180). -/
theorem State.doReset_without_draws (s : State) : { s.doReset with draws := 0 } = State.reset := rfl

/-- A session that ends in a reset ends in the reset of the state its other operations reach. -/
theorem session_append_reset (ops : List HostOp) (s : State) :
    session (ops ++ [.reset]) s = (session ops s).doReset := by
  rw [session_append, session_cons, session_nil, hostOp]

end Sys2Proof.Machine

namespace Sys2Proof.Proofs

open Sys2Proof.Machine

/-- Settles O7: the session's last operation is a reset, which keeps only the counter of draws. -/
theorem resetForgetsThePast : Obligations.ResetForgetsThePast := by
  intro ops s
  rw [session_append_reset, State.doReset_without_draws]

end Sys2Proof.Proofs
end

section
/-! The decoder against the encoder, the list of invalid words and the opcode table (spec/30_encoding.md R56 to R58,
R65): a word as the parts that its page reads, what the invalid variant says of a word, which words a row covers, and
the statements that say it. -/

namespace Sys2Proof

open Machine

/-! ## A word and its parts (R52, R56) -/

theorem fieldOp_append_fieldNNN (w : Word) : fieldOp w ++ fieldNNN w = w :=
  BitVec.extractLsb'_append_extractLsb'_eq_extractLsb' rfl |>.trans BitVec.extractLsb'_eq_self

theorem fieldOp_append_fieldX_append_fieldNN (w : Word) : fieldOp w ++ fieldX w ++ fieldNN w = w := by
  apply BitVec.eq_of_toNat_eq
  have := w.isLt
  simp only [toNat_append_eq, fieldOp, fieldX, fieldNN, BitVec.extractLsb'_toNat, Nat.shiftRight_eq_div_pow]
  omega

theorem eq_addr_of_fieldOp {w : Word} {k : Nibble} (op : fieldOp w = k) : k ++ fieldNNN w = w :=
  op ▸ fieldOp_append_fieldNNN w

theorem eq_byte_of_fieldOp {w : Word} {k : Nibble} (op : fieldOp w = k) : k ++ fieldX w ++ fieldNN w = w :=
  op ▸ fieldOp_append_fieldX_append_fieldNN w

theorem eq_byte_of_fields {w : Word} {k : Nibble} {nn : Byte} (op : fieldOp w = k) (byte : fieldNN w = nn) :
    k ++ fieldX w ++ nn = w :=
  byte ▸ eq_byte_of_fieldOp op

theorem eq_nibbles_of_fieldOp {w : Word} {k : Nibble} (op : fieldOp w = k) :
    k ++ fieldX w ++ fieldY w ++ fieldN w = w :=
  op ▸ (word_eq_nibbles w).symm

theorem eq_nibbles_of_fields {w : Word} {k n : Nibble} (op : fieldOp w = k) (minor : fieldN w = n) :
    k ++ fieldX w ++ fieldY w ++ n = w :=
  minor ▸ eq_nibbles_of_fieldOp op

/-! ## Encoding what was decoded (R65) -/

theorem encodeOp_decodePage0 (w : Word) : encodeOp (decodePage0 w) = w := by
  unfold decodePage0
  split
  · exact Eq.symm ‹_›
  · split
    · exact Eq.symm ‹_›
    · rfl

theorem encodeOp_decodePage8 {w : Word} (op : fieldOp w = 0x8#4) : encodeOp (decodePage8 w) = w := by
  unfold decodePage8
  split
  case h_10 => rfl
  all_goals exact eq_nibbles_of_fields op ‹_›

theorem encodeOp_decodePageE {w : Word} (op : fieldOp w = 0xE#4) : encodeOp (decodePageE w) = w := by
  unfold decodePageE
  split
  case h_3 => rfl
  all_goals exact eq_byte_of_fields op ‹_›

theorem encodeOp_decodePageF {w : Word} (op : fieldOp w = 0xF#4) : encodeOp (decodePageF w) = w := by
  unfold decodePageF
  split
  case h_10 => rfl
  all_goals exact eq_byte_of_fields op ‹_›

/-- A page that assigns only words whose last nibble is 0. -/
theorem encodeOp_of_minor_zero {w : Word} {i : Instr}
    (zero : fieldN w = 0#4 → encode i = w) : encodeOp (if fieldN w = 0#4 then .instr i else .invalid w) = w := by
  split
  · exact zero ‹_›
  · rfl

/-- Encoding gives back the word that was decoded, whether it is an instruction or invalid. -/
theorem encodeOp_decode (w : Word) : encodeOp (decode w) = w := by
  unfold decode
  split
  case h_1 => exact encodeOp_decodePage0 w
  case h_2 op | h_3 op | h_11 op | h_12 op => exact eq_addr_of_fieldOp op
  case h_4 op | h_5 op | h_7 op | h_8 op | h_13 op => exact eq_byte_of_fieldOp op
  case h_6 op | h_10 op => exact encodeOp_of_minor_zero (eq_nibbles_of_fields op)
  case h_9 op => exact encodeOp_decodePage8 op
  case h_14 op => exact eq_nibbles_of_fieldOp op
  case h_15 op => exact encodeOp_decodePageE op
  case h_16 =>
    have op : fieldOp w = 0xF#4 := by
      generalize fieldOp w = k at *
      clear w
      decide +revert
    exact encodeOp_decodePageF op

theorem encode_of_decode {w : Word} {i : Instr} (h : decode w = .instr i) : encode i = w := by
  have := encodeOp_decode w
  rwa [h] at this

theorem eq_of_decode_invalid {w w' : Word} (h : decode w = .invalid w') : w' = w := by
  have := encodeOp_decode w
  rwa [h] at this

/-! ## What is not an instruction is on the list (R58)

The converse of `decode_of_invalidWord`, page by page. -/

theorem page_of_fieldOp {w : Word} {k : Nibble} (op : fieldOp w = k) : w.toNat / 4096 = k.toNat := by
  rw [← fieldOp_toNat, op]

theorem invalidWord_of_decodePage0 {w : Word} (op : fieldOp w = 0x0#4) (invalid : decodePage0 w = .invalid w) :
    invalidWord w = true := by
  simp only [invalidWord, page_of_fieldOp op, BitVec.reduceToNat, decide_eq_true_eq, List.mem_cons,
    List.not_mem_nil, or_false]
  have page := page_of_fieldOp op
  rintro (low | low)
  · have cls : w = 0x00E0#16 := by bv_omega
    simp [cls, decodePage0] at invalid
  · have ret : w = 0x00EE#16 := by bv_omega
    simp [ret, decodePage0] at invalid

/-- Pages 5 and 9. -/
theorem invalidWord_of_minor_ne_zero {w : Word} (op : fieldOp w = 0x5#4 ∨ fieldOp w = 0x9#4) (minor : fieldN w ≠ 0#4) :
    invalidWord w = true := by
  have nonzero : w.toNat % 16 ≠ 0 := fun zero => minor (BitVec.eq_of_toNat_eq (by rw [fieldN_toNat, zero]; rfl))
  rcases op with op | op <;> simpa [invalidWord, page_of_fieldOp op] using nonzero

theorem invalidWord_of_decodePage8 {w : Word} (op : fieldOp w = 0x8#4) (invalid : decodePage8 w = .invalid w) :
    invalidWord w = true := by
  simp only [invalidWord, page_of_fieldOp op, BitVec.reduceToNat, decide_eq_true_eq, ← fieldN_toNat]
  unfold decodePage8 at invalid
  split at invalid
  case h_10 =>
    generalize fieldN w = n at *
    clear invalid op w
    decide +revert
  all_goals cases invalid

theorem invalidWord_of_decodePageE {w : Word} (op : fieldOp w = 0xE#4) (invalid : decodePageE w = .invalid w) :
    invalidWord w = true := by
  simp only [invalidWord, page_of_fieldOp op, BitVec.reduceToNat, decide_eq_true_eq, ← fieldNN_toNat]
  unfold decodePageE at invalid
  split at invalid
  case h_3 =>
    generalize fieldNN w = n at *
    clear invalid op w
    decide +revert
  all_goals cases invalid

theorem invalidWord_of_decodePageF {w : Word} (op : fieldOp w = 0xF#4) (invalid : decodePageF w = .invalid w) :
    invalidWord w = true := by
  simp only [invalidWord, page_of_fieldOp op, BitVec.reduceToNat, decide_eq_true_eq, ← fieldNN_toNat]
  unfold decodePageF at invalid
  split at invalid
  case h_10 =>
    generalize fieldNN w = n at *
    clear invalid op w
    decide +revert
  all_goals cases invalid

theorem invalidWord_of_decode {w : Word} (invalid : decode w = .invalid w) : invalidWord w = true := by
  unfold decode at invalid
  split at invalid
  case h_1 op => exact invalidWord_of_decodePage0 op invalid
  case h_6 op =>
    exact invalidWord_of_minor_ne_zero (.inl op) fun zero => by rw [if_pos zero] at invalid; cases invalid
  case h_9 op => exact invalidWord_of_decodePage8 op invalid
  case h_10 op =>
    exact invalidWord_of_minor_ne_zero (.inr op) fun zero => by rw [if_pos zero] at invalid; cases invalid
  case h_15 op => exact invalidWord_of_decodePageE op invalid
  case h_16 =>
    have op : fieldOp w = 0xF#4 := by
      generalize fieldOp w = k at *
      clear invalid w
      decide +revert
    exact invalidWord_of_decodePageF op invalid
  all_goals cases invalid

/-! ## Decoding what was encoded (R65) -/

theorem decode_rnd (x : Nibble) (nn : Byte) : decode (0xC#4 ++ x ++ nn) = .instr (.rnd x nn) := by
  simp only [decode, fieldOp_byte, fieldX_byte, fieldNN_byte]

theorem decode_encode (i : Instr) : decode (encode i) = .instr i := by
  cases i with
  | cls => exact decode_cls
  | ret => exact decode_ret
  | jp nnn => exact decode_jp nnn
  | call nnn => exact decode_call nnn
  | seImm x nn => exact decode_seImm x nn
  | sneImm x nn => exact decode_sneImm x nn
  | seReg x y => exact decode_seReg x y
  | ldImm x nn => exact decode_ldImm x nn
  | addImm x nn => exact decode_addImm x nn
  | ldReg x y => exact decode_ldReg x y
  | or x y => exact decode_or x y
  | and x y => exact decode_and x y
  | xor x y => exact decode_xor x y
  | addReg x y => exact decode_addReg x y
  | sub x y => exact decode_sub x y
  | shr x y => exact decode_shr x y
  | subn x y => exact decode_subn x y
  | shl x y => exact decode_shl x y
  | sneReg x y => exact decode_sneReg x y
  | ldI nnn => exact decode_ldI nnn
  | jpV0 nnn => exact decode_jpV0 nnn
  | rnd x nn => exact decode_rnd x nn
  | drw x y n => exact decode_drw x y n
  | skp x => exact decode_skp x
  | sknp x => exact decode_sknp x
  | ldVxDt x => exact decode_ldVxDt x
  | ldVxK x => exact decode_ldVxK x
  | ldDtVx x => exact decode_ldDtVx x
  | ldStVx x => exact decode_ldStVx x
  | addI x => exact decode_addI x
  | ldF x => exact decode_ldF x
  | ldB x => exact decode_ldB x
  | storeRegs x => exact decode_storeRegs x
  | loadRegs x => exact decode_loadRegs x

/-! ## Rows and the words they cover

The masks of the table, each as the fields that it keeps. -/

theorem and_mask_op (w : Word) : w &&& 0xF000 = fieldOp w ++ 0#12 := by
  conv_lhs => rw [← fieldOp_append_fieldNNN w, show (0xF000 : Word) = BitVec.allOnes 4 ++ 0#12 from rfl,
    BitVec.and_append, BitVec.and_allOnes, BitVec.and_zero]

theorem and_mask_op_byte (w : Word) : w &&& 0xF0FF = fieldOp w ++ 0#4 ++ fieldNN w := by
  conv_lhs => rw [← fieldOp_append_fieldX_append_fieldNN w,
    show (0xF0FF : Word) = BitVec.allOnes 4 ++ 0#4 ++ BitVec.allOnes 8 from rfl,
    BitVec.and_append, BitVec.and_append, BitVec.and_allOnes, BitVec.and_allOnes, BitVec.and_zero]

theorem and_mask_op_minor (w : Word) : w &&& 0xF00F = fieldOp w ++ 0#4 ++ 0#4 ++ fieldN w := by
  conv_lhs => rw [word_eq_nibbles w,
    show (0xF00F : Word) = BitVec.allOnes 4 ++ 0#4 ++ 0#4 ++ BitVec.allOnes 4 from rfl, BitVec.and_append,
    BitVec.and_append, BitVec.and_append, BitVec.and_allOnes, BitVec.and_allOnes, BitVec.and_zero, BitVec.and_zero]

section Covers

variable {name : String} {p w : Word}

theorem covers_word_iff : OpcodeRow.covers ⟨name, p, 0xFFFF⟩ w = true ↔ w = p := by
  rw [OpcodeRow.covers, decide_eq_true_eq, show (0xFFFF : Word) = BitVec.allOnes 16 from rfl, BitVec.and_allOnes]

theorem covers_op_iff (fits : p &&& 0xF000 = p) :
    OpcodeRow.covers ⟨name, p, 0xF000⟩ w = true ↔ fieldOp w = fieldOp p := by
  rw [OpcodeRow.covers, decide_eq_true_eq, ← fits, and_mask_op, and_mask_op, fieldOp_addr]
  refine ⟨fun same => ?_, fun op => by rw [op]⟩
  have op := congrArg fieldOp same
  rwa [fieldOp_addr, fieldOp_addr] at op

theorem covers_op_byte_iff (fits : p &&& 0xF0FF = p) :
    OpcodeRow.covers ⟨name, p, 0xF0FF⟩ w = true ↔ fieldOp w = fieldOp p ∧ fieldNN w = fieldNN p := by
  rw [OpcodeRow.covers, decide_eq_true_eq, ← fits, and_mask_op_byte, and_mask_op_byte, fieldOp_byte, fieldNN_byte]
  refine ⟨fun same => ⟨?_, ?_⟩, fun ⟨op, byte⟩ => by rw [op, byte]⟩
  · have op := congrArg fieldOp same
    rwa [fieldOp_byte, fieldOp_byte] at op
  · have byte := congrArg fieldNN same
    rwa [fieldNN_byte, fieldNN_byte] at byte

theorem covers_op_minor_iff (fits : p &&& 0xF00F = p) :
    OpcodeRow.covers ⟨name, p, 0xF00F⟩ w = true ↔ fieldOp w = fieldOp p ∧ fieldN w = fieldN p := by
  rw [OpcodeRow.covers, decide_eq_true_eq, ← fits, and_mask_op_minor, and_mask_op_minor, fieldOp_nibbles,
    fieldN_nibbles]
  refine ⟨fun same => ⟨?_, ?_⟩, fun ⟨op, minor⟩ => by rw [op, minor]⟩
  · have op := congrArg fieldOp same
    rwa [fieldOp_nibbles, fieldOp_nibbles] at op
  · have minor := congrArg fieldN same
    rwa [fieldN_nibbles, fieldN_nibbles] at minor

end Covers

/-- The operands of the instruction, read from `w` in the layout of its row. -/
def Instr.withOperands (i : Instr) (w : Word) : Instr :=
  match i with
  | .cls => .cls
  | .ret => .ret
  | .jp _ => .jp (fieldNNN w)
  | .call _ => .call (fieldNNN w)
  | .seImm _ _ => .seImm (fieldX w) (fieldNN w)
  | .sneImm _ _ => .sneImm (fieldX w) (fieldNN w)
  | .seReg _ _ => .seReg (fieldX w) (fieldY w)
  | .ldImm _ _ => .ldImm (fieldX w) (fieldNN w)
  | .addImm _ _ => .addImm (fieldX w) (fieldNN w)
  | .ldReg _ _ => .ldReg (fieldX w) (fieldY w)
  | .or _ _ => .or (fieldX w) (fieldY w)
  | .and _ _ => .and (fieldX w) (fieldY w)
  | .xor _ _ => .xor (fieldX w) (fieldY w)
  | .addReg _ _ => .addReg (fieldX w) (fieldY w)
  | .sub _ _ => .sub (fieldX w) (fieldY w)
  | .shr _ _ => .shr (fieldX w) (fieldY w)
  | .subn _ _ => .subn (fieldX w) (fieldY w)
  | .shl _ _ => .shl (fieldX w) (fieldY w)
  | .sneReg _ _ => .sneReg (fieldX w) (fieldY w)
  | .ldI _ => .ldI (fieldNNN w)
  | .jpV0 _ => .jpV0 (fieldNNN w)
  | .rnd _ _ => .rnd (fieldX w) (fieldNN w)
  | .drw _ _ _ => .drw (fieldX w) (fieldY w) (fieldN w)
  | .skp _ => .skp (fieldX w)
  | .sknp _ => .sknp (fieldX w)
  | .ldVxDt _ => .ldVxDt (fieldX w)
  | .ldVxK _ => .ldVxK (fieldX w)
  | .ldDtVx _ => .ldDtVx (fieldX w)
  | .ldStVx _ => .ldStVx (fieldX w)
  | .addI _ => .addI (fieldX w)
  | .ldF _ => .ldF (fieldX w)
  | .ldB _ => .ldB (fieldX w)
  | .storeRegs _ => .storeRegs (fieldX w)
  | .loadRegs _ => .loadRegs (fieldX w)

theorem row_withOperands (i : Instr) (w : Word) : (i.withOperands w).row = i.row := by
  cases i <;> rfl

theorem encode_withOperands_of_covers {i : Instr} {w : Word} (covered : i.row.covers w = true) :
    encode (i.withOperands w) = w := by
  cases i with
  | cls | ret => exact (covers_word_iff.1 covered).symm
  | jp | call | ldI | jpV0 => exact eq_addr_of_fieldOp ((covers_op_iff (by rfl)).1 covered)
  | seImm | sneImm | ldImm | addImm | rnd => exact eq_byte_of_fieldOp ((covers_op_iff (by rfl)).1 covered)
  | drw => exact eq_nibbles_of_fieldOp ((covers_op_iff (by rfl)).1 covered)
  | seReg | sneReg | ldReg | or | and | xor | addReg | sub | shr | subn | shl =>
    obtain ⟨op, minor⟩ := (covers_op_minor_iff (by rfl)).1 covered
    exact eq_nibbles_of_fields op minor
  | skp | sknp | ldVxDt | ldVxK | ldDtVx | ldStVx | addI | ldF | ldB | storeRegs | loadRegs =>
    obtain ⟨op, byte⟩ := (covers_op_byte_iff (by rfl)).1 covered
    exact eq_byte_of_fields op byte

theorem covers_encode (i : Instr) : i.row.covers (encode i) = true := by
  cases i with
  | cls | ret => exact covers_word_iff.2 rfl
  | jp | call | ldI | jpV0 => exact (covers_op_iff (by rfl)).2 (fieldOp_addr ..)
  | seImm | sneImm | ldImm | addImm | rnd => exact (covers_op_iff (by rfl)).2 (fieldOp_byte ..)
  | drw => exact (covers_op_iff (by rfl)).2 (fieldOp_nibbles ..)
  | seReg | sneReg | ldReg | or | and | xor | addReg | sub | shr | subn | shl =>
    exact (covers_op_minor_iff (by rfl)).2 ⟨fieldOp_nibbles .., fieldN_nibbles ..⟩
  | skp | sknp | ldVxDt | ldVxK | ldDtVx | ldStVx | addI | ldF | ldB | storeRegs | loadRegs =>
    exact (covers_op_byte_iff (by rfl)).2 ⟨fieldOp_byte .., fieldNN_byte ..⟩

/-- Every row of the table is some instruction's. -/
theorem exists_row_eq_of_mem_opcodeTable {r : OpcodeRow} (mem : r ∈ opcodeTable) : ∃ i : Instr, i.row = r := by
  simp only [opcodeTable, List.mem_append, List.mem_map] at mem
  rcases mem with (⟨i, -, row⟩ | ⟨i, -, row⟩) | ⟨i, -, row⟩ <;> exact ⟨i, row⟩

theorem row_mem_opcodeTable (i : Instr) : i.row ∈ opcodeTable := by
  cases i <;> exact of_decide_eq_true rfl

/-- A word that a row of the table covers decodes to an instruction of that row. -/
theorem exists_decode_of_covers {r : OpcodeRow} {w : Word} (mem : r ∈ opcodeTable) (covered : r.covers w = true) :
    ∃ i, decode w = .instr i ∧ i.row = r := by
  obtain ⟨i, rfl⟩ := exists_row_eq_of_mem_opcodeTable mem
  refine ⟨i.withOperands w, ?_, row_withOperands i w⟩
  rw [← decode_encode, encode_withOperands_of_covers covered]

end Sys2Proof

namespace Sys2Proof.Proofs

open Sys2Proof.Machine

/-- Settles O2: each constructor's encoding decodes to it, and encoding a decoded operation gives back its word. -/
theorem decodeEncodeAgree : Obligations.DecodeEncodeAgree :=
  ⟨decode_encode, fun _ _ => encode_of_decode⟩

/-- Settles O3: both directions page by page; an invalid variant carries its word because encoding gives it back. -/
theorem invalidWordsAreThoseListed : Obligations.InvalidWordsAreThoseListed :=
  ⟨fun _ => ⟨invalidWord_of_decode, decode_of_invalidWord⟩, fun _ _ => eq_of_decode_invalid⟩

/-- Settles O4: a word is the encoding of what it decodes to, which its own row covers, and a row that covers a word
is the row of what the word decodes to. -/
theorem opcodeTableAgreesWithDecoder : Obligations.OpcodeTableAgreesWithDecoder := by
  refine ⟨rfl, fun w => ⟨?instruction, ?invalid⟩⟩
  case instruction =>
    intro i decoded
    refine ⟨row_mem_opcodeTable i, encode_of_decode decoded ▸ covers_encode i, ?only⟩
    case only =>
      intro r mem covered
      obtain ⟨j, decoded', rfl⟩ := exists_decode_of_covers mem covered
      rw [decoded] at decoded'
      cases decoded'
      rfl
  case invalid =>
    intro w' decoded r mem
    rw [Bool.eq_false_iff]
    intro covered
    obtain ⟨i, decoded', -⟩ := exists_decode_of_covers mem covered
    rw [decoded] at decoded'
    cases decoded'

/-- Settles O1: each word by evaluating the decoder on it. -/
theorem decodesWordsOfTheVectors : Obligations.DecodesWordsOfTheVectors := by
  unfold Obligations.DecodesWordsOfTheVectors
  decide

end Sys2Proof.Proofs
end

section
/-! The form of memory and the bounds of R77 (spec/20_memory.md section 2, spec/40_interpreter_cycle.md R77,
spec/70_reset_and_hazards.md R181, R182): what a canonical memory is made of, what load_rom leaves, and the invariant
of steps and sessions, with the statements that say it. -/

namespace Sys2Proof.Machine

open Sys2Proof.Safety

/-! ## A canonical memory lists what it reads (notes/assumptions/5.md) -/

theorem Memory.mem_iff_of_wf {m : Memory} (wf : m.wf) {c : Host.Cell} :
    c ∈ m ↔ m.read c.1 = c.2 ∧ c.2 ≠ resetByte c.1 := by
  obtain ⟨rising, changed⟩ := wf
  constructor
  · intro mem
    exact ⟨Memory.read_of_mem rising mem, (changed c mem).2⟩
  · rintro ⟨read, ne⟩
    by_contra notMem
    refine ne (read ▸ Memory.read_of_forall_ne fun d mem same => notMem ?_)
    have value := Memory.read_of_mem rising mem
    rw [same, read] at value
    rwa [Prod.ext same.symm value]

theorem Memory.eq_of_read_eq {m m' : Memory} (wf : m.wf) (wf' : m'.wf) (same : ∀ a, m.read a = m'.read a) :
    m = m' := by
  have antisymm : Std.Antisymm fun c d : Host.Cell => c.1 < d.1 := ⟨fun _ _ h h' => absurd h (Nat.lt_asymm h')⟩
  have irrefl : Std.Irrefl fun c d : Host.Cell => c.1 < d.1 := ⟨fun _ => Nat.lt_irrefl _⟩
  refine List.Pairwise.eq_of_mem_iff wf.1 wf'.1 fun c => ?_
  rw [Memory.mem_iff_of_wf wf, Memory.mem_iff_of_wf wf', same]

/-! ## A property of the next state -/

/-- The next state that `o` answers, if it answers one, has the property. (`Leaves f s o` says this of the property
of reading the same by `f` as `s`.) -/
def Answers (P : State → Prop) (o : Host.Outcome State Fault Refusal) : Prop := ∀ t, o = .next t → P t

theorem answers_next {P : State → Prop} {t : State} (holds : P t) : Answers P (.next t) := by
  rintro _ ⟨⟩
  exact holds

theorem answers_orRaise {P : State → Prop} {β : Type} {s : State} {r : Except Fault β}
    {k : β → Host.Outcome State Fault Refusal} (halts : ∀ e, P (s.setRun (.halted e)))
    (rest : ∀ b, r = .ok b → Answers P (k b)) : Answers P (orRaise s r k) := by
  cases r with
  | error e => exact answers_next (halts e)
  | ok b => exact rest b rfl

/-- The state after a call that finds room on the stack. -/
def State.called (nnn : Addr12) (s : State) (room : s.sp.val < 16) : State :=
  { s with
    stack := s.stack.set s.sp.val (s.pc + 2)
    sp := ⟨s.sp.val + 1, Nat.succ_lt_succ room⟩
    pc := zext16 nnn }

theorem exec_call_eq_called (nnn : Addr12) {s : State} (room : s.sp.val < 16) :
    exec (.call nnn) s = .next (s.called nnn room) :=
  exec_call_of_room nnn room

theorem State.called_stack (nnn : Addr12) {s : State} (room : s.sp.val < 16) (k : Fin 16) :
    (s.called nnn room).stack[k.val] = if k.val = s.sp.val then s.pc + 2 else s.stack[k.val] := by
  rw [State.called, Vector.getElem_set]
  exact if_congr eq_comm rfl rfl

theorem answers_exec_call {P : State → Prop} {s : State} {nnn : Addr12} (halts : ∀ e, P (s.setRun (.halted e)))
    (calls : ∀ room, P (s.called nnn room)) : Answers P (exec (.call nnn) s) := by
  by_cases room : s.sp.val < 16
  · rw [exec_call_eq_called nnn room]
    exact answers_next (calls room)
  · have full : instrFault (.call nnn) s = some .stackOverflow := if_pos (Fin.ext (by omega))
    rw [exec_of_instrFault full]
    exact answers_next (halts _)

theorem answers_exec_ret {P : State → Prop} {s : State} (halts : ∀ e, P (s.setRun (.halted e)))
    (returns : ∀ k : Fin 16, P { s with sp := k.castSucc, pc := s.stack[k.val] }) : Answers P (exec .ret s) := by
  rcases Nat.eq_zero_or_pos s.sp.val with empty | filled
  · have underflow : instrFault .ret s = some .stackUnderflow := if_pos (Fin.ext empty)
    rw [exec_of_instrFault underflow]
    exact answers_next (halts _)
  · have below : s.sp.val = s.sp.val - 1 + 1 := by omega
    rw [exec_ret_of_sp_eq_succ (k := ⟨s.sp.val - 1, by omega⟩) below]
    exact answers_next (returns _)

/-! ## The invariant of a state (R77) -/

theorem inv_doReset (s : State) : Inv s.doReset := by
  refine ⟨?_, fun k => ?_, Memory.wf_nil⟩
  · rw [State.doReset_pc]; decide
  · rw [State.getElem_stack_doReset]; decide

/-- The invariant looks at PC, the stack and memory alone. -/
theorem inv_of_same {s t : State} (inv : Inv s) (mem : t.mem = s.mem) (stack : t.stack = s.stack) (pc : t.pc = s.pc) :
    Inv t := by
  rwa [Safety.Inv, mem, stack, pc]

theorem pc_le_of_near {n : NextPc} (near : n = .default ∨ n = .skip) {pc : Word} (inside : pc.toNat ≤ 0xFFE) :
    (n.from pc).toNat ≤ 0x10FE := by
  rcases near with rfl | rfl
  · rw [NextPc.from_default, u16_toNat]; omega
  · rw [NextPc.from_skip, u16_toNat]; omega

/-! What an instruction does in a state that meets the invariant and whose PC can be fetched from. -/

section Inv

variable {s : State} (inv : Inv s)
include inv

theorem inv_halted (e : Fault) : Inv (s.setRun (.halted e)) := inv_of_same inv rfl rfl rfl

theorem inv_target {t : State} {w : Word} (mem : t.mem = s.mem) (stack : t.stack = s.stack) (near : w.toNat ≤ 0x10FE) :
    Answers Inv (finish (.target w) t) := by
  obtain ⟨-, slots, wf⟩ := inv
  exact answers_next ⟨near, stack ▸ slots, mem ▸ wf⟩

theorem inv_exec_jp (nnn : Addr12) : Answers Inv (exec (.jp nnn) s) :=
  inv_target inv rfl rfl (by rw [zext16_toNat]; omega)

theorem inv_exec_jpV0 (nnn : Addr12) : Answers Inv (exec (.jpV0 nnn) s) :=
  inv_target inv rfl rfl (by rw [u16_addr_add_byte_toNat]; omega)

/-- 00EE goes to the content of a slot. -/
theorem inv_exec_ret : Answers Inv (exec .ret s) := by
  refine answers_exec_ret (inv_halted inv) fun k => ?_
  obtain ⟨-, slots, wf⟩ := inv
  exact ⟨Nat.le_trans (slots k) (by decide), slots, wf⟩

variable (inside : s.pc.toNat ≤ 0xFFE)
include inside

/-- 2NNN pushes an address at most 0x1000, and goes to one below it. -/
theorem inv_exec_call (nnn : Addr12) : Answers Inv (exec (.call nnn) s) := by
  refine answers_exec_call (inv_halted inv) fun room => ?_
  obtain ⟨-, slots, wf⟩ := inv
  refine ⟨Nat.le_trans (Nat.le_of_eq (zext16_toNat nnn)) (by omega), fun k => ?_, wf⟩
  rw [State.called_stack]
  split
  · bv_omega
  · exact slots k

theorem inv_finish {n : NextPc} {t : State} (mem : t.mem = s.mem) (stack : t.stack = s.stack) (pc : t.pc = s.pc)
    (near : n = .default ∨ n = .skip) : Answers Inv (finish n t) := by
  obtain ⟨-, slots, wf⟩ := inv
  exact answers_next ⟨pc ▸ pc_le_of_near near inside, stack ▸ slots, mem ▸ wf⟩

theorem inv_skipIf (c : Bool) : Answers Inv (skipIf c s) :=
  inv_finish inv inside rfl rfl rfl (by cases c <;> simp)

/-- An access that passes its bound writes inside the address space. -/
theorem inv_storeAtI (bs : List Byte) : Answers Inv (storeAtI bs s) := by
  refine answers_orRaise (inv_halted inv) fun m stored => answers_next ?_
  rw [memWrite_eq] at stored
  split at stored
  · cases stored
  · cases stored
    obtain ⟨-, slots, wf⟩ := inv
    exact ⟨pc_le_of_near (.inl rfl) inside, slots, Memory.wf_writeBytes wf _ _ (by unfold Config.memSize; omega)⟩

theorem inv_exec (i : Instr) : Answers Inv (exec i s) := by
  cases i with
  | ret => exact inv_exec_ret inv
  | jp nnn => exact inv_exec_jp inv nnn
  | jpV0 nnn => exact inv_exec_jpV0 inv nnn
  | call nnn => exact inv_exec_call inv inside nnn
  | seImm | sneImm | seReg | sneReg => exact inv_skipIf inv inside _
  | skp | sknp => exact answers_orRaise (inv_halted inv) fun _ _ => inv_skipIf inv inside _
  | ldB | storeRegs => exact inv_storeAtI inv inside _
  | drw => exact answers_orRaise (inv_halted inv) fun _ _ => inv_finish inv inside rfl rfl rfl (.inl rfl)
  | loadRegs =>
    exact answers_orRaise (inv_halted inv) fun bs _ =>
      inv_finish inv inside (s.setRegs_mem bs) (s.setRegs_stack bs) (s.setRegs_pc bs) (.inl rfl)
  | _ => exact inv_finish inv inside rfl rfl rfl (.inl rfl)

end Inv

theorem pc_le_of_fetchDecode_ok {s : State} {i : Instr} (h : fetchDecode s = .ok i) : s.pc.toNat ≤ 0xFFE := by
  rw [fetchDecode_eq] at h
  split at h
  · cases h
  · omega

theorem inv_step {s : State} (inv : Inv s) : Answers Inv (step s) := by
  by_cases running : s.run = .running
  · rw [step_of_running running]
    exact answers_orRaise (inv_halted inv) fun i fetched => inv_exec inv (pc_le_of_fetchDecode_ok fetched) i
  · intro t stepped
    rcases step_of_not_running running stepped with rfl | ⟨x, k, rfl⟩
    · exact inv
    · exact inv_of_same inv rfl rfl rfl

/-! ## Every step answers a next state (R71, R72) -/

theorem exists_exec_eq_next (i : Instr) (s : State) : ∃ t, exec i s = .next t := by
  cases check : instrFault i s with
  | some f => exact ⟨_, exec_of_instrFault check⟩
  | none =>
    obtain ⟨t, completes, -⟩ := exec_of_instrFault_none check
    exact ⟨t, completes⟩

theorem exists_step_eq_next (s : State) : ∃ t, step s = .next t := by
  cases run : s.run with
  | running =>
    cases cause : faultCause s with
    | some f => exact ⟨_, step_of_faultCause run cause⟩
    | none =>
      obtain ⟨i, -, -, executes⟩ := step_of_faultCause_none run cause
      exact executes ▸ exists_exec_eq_next i s
  | halted f => exact ⟨s, step_of_halted run⟩
  | blockedOnKey x =>
    cases found : lowestPressed s with
    | none => exact ⟨s, step_of_blocked_without_key run found⟩
    | some k => exact ⟨_, step_of_blocked_with_key run found⟩

theorem hostOp_step_of_next {s t : State} (h : step s = .next t) : (hostOp .step s).1 = t := by
  rw [hostOp, doStep_of_next h]

/-! ## load_rom (R181) -/

theorem wf_loaded {b : List Byte} (fits : b.length ≤ 3584) :
    (Memory.writeBytes [] Config.progBase b).wf :=
  Memory.wf_writeBytes Memory.wf_nil _ _ (by unfold Config.progBase Config.memSize; omega)

theorem inv_restarts {op : HostOp} (restarts : Claims.Restarts op) (s : State) : Inv (hostOp op s).1 := by
  rcases restarts with rfl | ⟨b, rfl, fits⟩
  · exact inv_doReset s
  · obtain ⟨pc, slots, -⟩ := inv_doReset s
    rw [hostOp, loadRom_of_fits fits]
    exact ⟨pc, slots, wf_loaded fits⟩

theorem inv_hostOp {op : HostOp} {s : State} (inv : Inv s) : Inv (hostOp op s).1 := by
  by_cases restarts : Claims.Restarts op
  · exact inv_restarts restarts s
  by_cases isStep : op = .step
  · obtain ⟨t, stepped⟩ := exists_step_eq_next s
    rw [isStep, hostOp_step_of_next stepped]
    exact inv_step inv t stepped
  · rcases hostOp_of_not_step_of_not_restarts s isStep restarts with same | ticked | ⟨k, pressed, set⟩
    · rwa [same]
    · rw [ticked]; exact inv_of_same inv rfl rfl rfl
    · rw [set]; exact inv_of_same inv rfl rfl rfl

/-- A property that every host operation keeps holds after every session. -/
theorem session_induction {P : State → Prop} (keeps : ∀ op s, P s → P (hostOp op s).1) (ops : List HostOp) {s : State}
    (holds : P s) : P (session ops s) := by
  induction ops generalizing s with
  | nil => exact holds
  | cons op ops ih => exact ih (keeps op s holds)

end Sys2Proof.Machine

namespace Sys2Proof.Proofs

open Sys2Proof.Machine

/-- Settles O20: an instruction that runs was fetched, so its PC leaves room for every advance. -/
theorem stepKeepsInvariant : Obligations.StepKeepsInvariant :=
  fun _ t inv stepped => inv_step inv t stepped

/-- Settles O21: every host operation keeps the invariant. -/
theorem sessionKeepsInvariant : Obligations.SessionKeepsInvariant :=
  fun ops _ inv => session_induction (fun _ _ => inv_hostOp) ops inv

/-- Settles O19: the reset state is the reset of any state but for the counter. -/
theorem invariantAtReset : Obligations.InvariantAtReset := inv_doReset State.reset

/-- Settles O5: a canonical memory lists exactly the addresses that read other than their reset contents. -/
theorem memoryFormIsCanonical : Obligations.MemoryFormIsCanonical :=
  fun _ _ => Memory.eq_of_read_eq

/-- Settles O8: by the check of the length; the bytes are written over the reset memory. -/
theorem loadRomResetsAndCopies : Obligations.LoadRomResetsAndCopies := by
  intro b s
  refine ⟨fun tooLong => loadRom_of_too_long tooLong s,
    fun fits => ⟨_, loadRom_of_fits fits s, ?copied, ?others, wf_loaded fits, rfl⟩⟩
  case copied =>
    intro j v entry
    obtain ⟨inside, rfl⟩ := List.getElem?_eq_some_iff.1 entry
    exact Memory.read_writeBytes_inside List.Pairwise.nil _ b inside
  case others =>
    intro a outside
    exact Memory.read_writeBytes_outside _ _ _ _ outside

/-- Settles O15: a fault is entered by a next state, and every other outcome of an instruction is one. -/
theorem stepAlwaysAnswersNextState : Obligations.StepAlwaysAnswersNextState :=
  ⟨exists_exec_eq_next, exists_step_eq_next⟩

end Sys2Proof.Proofs
end

section
/-! Steps that run a known word (spec/40_interpreter_cycle.md R71 to R82, spec/41_control_flow.md R85, R87, R94,
spec/46_disassembler.md R157): a step by the word at PC, its result, calls and returns run by steps, idle and waiting
states, and the statements that say it. -/

namespace Sys2Proof.Machine

open Sys2Proof.Safety Sys2Proof.Claims

/-! ## A step by the word at PC (R75, R78) -/

theorem step_of_decode {s : State} {i : Instr} (running : s.run = .running) (inside : s.pc.toNat ≤ 0xFFE)
    (decoded : decode (s.mem.wordAt s.pc.toNat) = .instr i) : step s = exec i s :=
  step_of_fetchDecode_ok running (fetchDecode_of_instr inside decoded)

theorem step_of_decode_invalid {s : State} {w : Word} (running : s.run = .running) (inside : s.pc.toNat ≤ 0xFFE)
    (decoded : decode (s.mem.wordAt s.pc.toNat) = .invalid w) : step s = raise (.invalidOpcode w) s :=
  step_of_fetchDecode_error running (fetchDecode_of_invalid inside decoded)

theorem step_of_encode {s : State} {i : Instr} (running : s.run = .running) (inside : s.pc.toNat ≤ 0xFFE)
    (word : s.mem.wordAt s.pc.toNat = encode i) : step s = exec i s :=
  step_of_decode running inside (by rw [word, decode_encode])

/-- After a restart that loads nothing, the two bytes at 0x200 are 0 (R182). -/
theorem step_of_empty {s : State} (mem : s.mem = []) (pc : s.pc = 0x200) (running : s.run = .running) :
    step s = raise (.invalidOpcode 0x0000) s := by
  refine step_of_decode_invalid running (by rw [pc]; decide) ?_
  rw [mem, pc]
  decide

/-! ## The result of a step (R72) -/

/-- What a step fails with: the fault that RUN holds, or that of the first check to fail. -/
def stepFault (s : State) : Option Fault :=
  match s.run with
  | .running => faultCause s
  | .blockedOnKey _ => none
  | .halted f => some f

theorem stepFault_eq_some {s : State} {f : Fault} :
    stepFault s = some f ↔ s.run = .halted f ∨ (s.run = .running ∧ faultCause s = some f) := by
  cases run : s.run <;> simp [stepFault, run]

theorem stepFault_eq_none {s : State} :
    stepFault s = none ↔ (∀ f, s.run ≠ .halted f) ∧ (s.run = .running → faultCause s = none) := by
  cases run : s.run <;> simp [stepFault, run]

theorem hostOp_step_of_stepFault {s : State} {f : Fault} (fault : stepFault s = some f) :
    (hostOp .step s).2 = .stepped (.failure f) := by
  rcases stepFault_eq_some.1 fault with halted | ⟨running, cause⟩
  · rw [hostOp_step_of_halted halted]
  · rw [hostOp_step_of_halts (step_of_faultCause running cause) rfl]

theorem hostOp_step_of_stepFault_none {s : State} (none : stepFault s = none) :
    (hostOp .step s).2 = .stepped .success := by
  obtain ⟨notHalted, passes⟩ := stepFault_eq_none.1 none
  cases run : s.run with
  | halted f => exact absurd run (notHalted f)
  | running =>
    obtain ⟨i, -, check, executes⟩ := step_of_faultCause_none run (passes run)
    obtain ⟨t, completes, kept | ⟨x, -, waits⟩⟩ := exec_of_instrFault_none check
    · rw [hostOp_step_of_not_halts (executes.trans completes) (by simp [kept, run])]
    · rw [hostOp_step_of_not_halts (executes.trans completes) (by simp [waits])]
  | blockedOnKey x =>
    cases found : lowestPressed s with
    | none => rw [hostOp_step_of_not_halts (step_of_blocked_without_key run found) (by simp [run])]
    | some k => rw [hostOp_step_of_not_halts (step_of_blocked_with_key run found) (by simp)]

/-! ## Records (R157) -/

/-- Every record of a disassembly is that of a slot inside memory. -/
theorem exists_recordAt_of_mem_walk {m : Memory} {stop : Int} {fuel a : Nat} {r : Record}
    (mem : r ∈ walk m stop fuel a) : ∃ b, b + 1 ≤ 0xFFF ∧ r = recordAt m b := by
  induction fuel generalizing a with
  | zero => cases mem
  | succ fuel ih =>
    by_cases slot : SlotInside stop a
    · rw [walk_of_inside m fuel slot] at mem
      rcases List.mem_cons.1 mem with first | rest
      · exact ⟨a, slot.2, first⟩
      · exact ih rest
    · rw [walk_of_not_inside m _ slot] at mem
      cases mem

theorem exists_recordAt_of_mem_disassemble {m : Memory} {start stop : Int} {r : Record}
    (mem : r ∈ disassemble m start stop) : ∃ b, b + 1 ≤ 0xFFF ∧ r = recordAt m b := by
  unfold disassemble at mem
  split at mem
  · cases mem
  · exact exists_recordAt_of_mem_walk mem

theorem u16_toNat_of_inside {a : Nat} (inside : a + 1 ≤ 0xFFF) : (u16 a).toNat = a := by
  rw [u16_toNat]
  omega

/-! ## Calls run by steps (R87) -/

theorem session_replicate_succ (op : HostOp) (n : Nat) (s : State) :
    session (List.replicate (n + 1) op) s = (hostOp op (session (List.replicate n op) s)).1 := by
  rw [List.replicate_succ', session_append, session_cons, session_nil]

/-- `n` calls of the instruction at the PC of `s` to itself have led from `s` to `t`. -/
structure SelfCalled (s : State) (n : Nat) (t : State) : Prop where
  running : t.run = .running
  sp : t.sp.val = n
  pc : t.pc = s.pc
  mem : t.mem = s.mem
  slots : ∀ k : Fin 16, t.stack[k.val] = if k.val < n then s.pc + 2 else s.stack[k.val]

section SelfCall

variable {s t : State} {nnn : Addr12} {n : Nat} (target : s.pc.toNat = nnn.toNat) (inside : nnn.toNat ≤ 0xFFE)
  (word : s.mem.wordAt s.pc.toNat = encode (.call nnn)) (calls : SelfCalled s n t)
include target inside word calls

theorem SelfCalled.step_eq : step t = exec (.call nnn) t :=
  step_of_encode calls.running (by rw [calls.pc]; omega) (by rw [calls.mem, calls.pc, word])

theorem SelfCalled.succ (room : n < 16) : SelfCalled s (n + 1) (hostOp .step t).1 := by
  have room' : t.sp.val < 16 := calls.sp ▸ room
  have stepped := (calls.step_eq target inside word).trans (exec_call_eq_called nnn room')
  rw [hostOp_step_of_next stepped]
  refine ⟨calls.running, congrArg (· + 1) calls.sp, ?pc, calls.mem, fun k => ?slots⟩
  case pc => exact BitVec.eq_of_toNat_eq ((zext16_toNat nnn).trans target.symm)
  case slots =>
    rw [State.called_stack, calls.sp, calls.pc, calls.slots]
    grind

theorem SelfCalled.overflow (full : n = 16) : (hostOp .step t).1 = { t with run := .halted .stackOverflow } :=
  have check : instrFault (.call nnn) t = some .stackOverflow := if_pos (Fin.ext (calls.sp.trans full))
  hostOp_step_of_next ((calls.step_eq target inside word).trans (exec_of_instrFault check))

end SelfCall

/-! ## Idle and waiting states (R82) -/

theorem step_of_idle {s : State} (idle : Idle s) : step s = .next s := by
  obtain ⟨running, inside, nnn, word, target⟩ := idle
  have same : zext16 nnn = s.pc := BitVec.eq_of_toNat_eq ((zext16_toNat nnn).trans target)
  rw [step_of_encode (i := .jp nnn) running inside word, exec_jp, same]
  rfl

theorem step_of_waiting {s : State} (waiting : Waiting s) : step s = .next s := by
  obtain ⟨⟨x, blocked⟩, noKey⟩ := waiting
  exact step_of_blocked_without_key blocked ((lowestPressed_eq_none s).2 noKey)

theorem idle_hostOp {s : State} {op : HostOp} (idle : Idle s) (which : op = .step ∨ op = .tick) :
    Idle (hostOp op s).1 := by
  rcases which with rfl | rfl
  · rwa [hostOp_step_of_next (step_of_idle idle)]
  · exact idle

theorem not_faulted_of_idle {s : State} (idle : Idle s) : ¬ Faulted s := by
  rintro ⟨f, halted⟩
  rw [idle.1] at halted
  cases halted

end Sys2Proof.Machine

namespace Sys2Proof.Proofs

open Sys2Proof.Machine Sys2Proof.Safety Sys2Proof.Claims

/-- Settles O10: the word at PC decodes to the instruction, which the step executes. -/
theorem stepRunsDecodedInstruction : Obligations.StepRunsDecodedInstruction := by
  intro s w i running inside atPc decoded
  exact step_of_decode running inside (by rw [wordAtPc_iff.1 atPc, decoded])

/-- Settles O11: the fetch is out of bounds. -/
theorem fetchAboveMemoryHalts : Obligations.FetchAboveMemoryHalts :=
  fun _ => fetchHalts_of_far

/-- Settles O9: both operations leave the reset memory, where the word at 0x200 is 0x0000. -/
theorem emptyMachineHaltsAtFirstStep : Obligations.EmptyMachineHaltsAtFirstStep := by
  intro s op restarts
  have empty : (hostOp op s).1 = s.doReset := by
    rcases List.mem_pair.1 restarts with rfl | rfl
    · rfl
    · exact congrArg Prod.fst (loadRom_of_fits (b := []) (by decide) s)
  have halts := hostOp_step_of_halts (step_of_empty s.doReset_mem s.doReset_pc s.doReset_run) rfl
  simp only [session_cons, session_nil, empty, halts]
  exact ⟨rfl, rfl, trivial⟩

/-- Settles O18: both results are read off what the step fails with, which is one fault or none. -/
theorem stepResultIsFailureOnlyOnFault : Obligations.StepResultIsFailureOnlyOnFault := by
  intro s
  simp only [← stepFault_eq_some, ← stepFault_eq_none]
  cases fault : stepFault s with
  | some f => simp [hostOp_step_of_stepFault fault]
  | none => simp [hostOp_step_of_stepFault_none fault]

/-- Settles O28: a record holds the word at its address, decoded, which is what a step at that address fetches. -/
theorem disassemblyAgreesWithStep : Obligations.DisassemblyAgreesWithStep := by
  intro s start stop r running listed atRecord
  obtain ⟨a, inside, rfl⟩ := exists_recordAt_of_mem_disassemble listed
  have pc : s.pc.toNat = a := by rw [atRecord]; exact u16_toNat_of_inside inside
  subst pc
  exact ⟨fun i => step_of_decode running (by omega), fun w => step_of_decode_invalid running (by omega)⟩

/-- Settles O33: the call pushes PC + 2 and goes to NNN, where 00EE pops it and keeps the slot. -/
theorem callThenReturnComesBack : Obligations.CallThenReturnComesBack := by
  intro s t u nnn running inside room atPc target returns called returned
  rw [step_of_encode running inside (wordAtPc_iff.1 atPc), exec_call_eq_called nnn room] at called
  cases called
  have pc : (s.called nnn room).pc.toNat = nnn.toNat := zext16_toNat nnn
  rw [step_of_encode (s := s.called nnn room) (i := .ret) running (by omega) (by rw [pc]; exact returns),
    exec_ret_of_sp_eq_succ (k := ⟨s.sp.val, room⟩) rfl] at returned
  cases returned
  refine ⟨?_, rfl, running, State.called_stack nnn room⟩
  exact (State.called_stack nnn room ⟨s.sp.val, room⟩).trans (if_pos rfl)

/-- Settles O32: each of the first sixteen steps makes one more call to the same place; the next finds no room. -/
theorem selfCallOverflowsAtTheSeventeenth : Obligations.SelfCallOverflowsAtTheSeventeenth := by
  intro s nnn running empty inside target atPc
  have word := wordAtPc_iff.1 atPc
  have calls : ∀ n ≤ 16, SelfCalled s n (session (List.replicate n .step) s) := by
    intro n bound
    induction n with
    | zero => exact ⟨running, congrArg Fin.val empty, rfl, rfl, fun k => rfl⟩
    | succ n ih =>
      rw [session_replicate_succ]
      exact (ih (by omega)).succ target inside word (by omega)
  refine ⟨fun n => ?first, ?last⟩
  case first =>
    obtain ⟨running, sp, pc, -, slots⟩ := calls n.val (by omega)
    exact ⟨running, Fin.ext sp, pc, slots⟩
  case last =>
    rw [session_replicate_succ]
    exact (calls 16 (Nat.le_refl 16)).overflow target inside word rfl

/-- Settles O59: an idle step jumps to where it stands and a waiting one finds no key; a tick leaves what makes a
state idle. -/
theorem idleAndWaitingStatesAreStable : Obligations.IdleAndWaitingStatesAreStable := by
  refine ⟨fun s stable => stable.elim step_of_idle step_of_waiting, ?sessions⟩
  case sessions =>
    intro ops
    induction ops with
    | nil => exact fun s idle _ => ⟨idle, not_faulted_of_idle idle⟩
    | cons op ops ih =>
      intro s idle which
      obtain ⟨first, rest⟩ := List.forall_mem_cons.1 which
      obtain ⟨idle', safe⟩ := ih _ (idle_hostOp idle first) rest
      exact ⟨idle', not_faulted_of_idle idle, safe⟩

/-- Settles O58: a check that fails raises; one that passes, or none, leaves RUN but for FX0A. -/
theorem runStateChangesOnlyByWaitOrFault : Obligations.RunStateChangesOnlyByWaitOrFault := by
  intro i s t executed
  cases check : instrFault i s with
  | some f =>
    rw [exec_of_instrFault check] at executed
    cases executed
    rfl
  | none =>
    obtain ⟨t', completes, run⟩ := exec_of_instrFault_none check
    rw [completes] at executed
    cases executed
    exact run

end Sys2Proof.Proofs
end

section
/-! Effects of several steps or ticks, and who writes which part of the state (spec/10_state.md R18 to R24,
spec/20_memory.md R37, R50, spec/42_alu.md R108, R109, spec/44_display.md R140, spec/45_timers_keypad.md R149), with
the statements that say it. -/

namespace Sys2Proof.Machine

open Sys2Proof.Safety Sys2Proof.Claims

/-! ## Ticks (R149) -/

theorem session_ticks (n : Nat) (s : State) :
    session (List.replicate n .tick) s = { s with dt := u8 (s.dt.toNat - n), st := u8 (s.st.toNat - n) } := by
  induction n with
  | zero => simp [u8]
  | succ n ih =>
    have decayed (b : Byte) : decay (u8 (b.toNat - n)) = u8 (b.toNat - (n + 1)) := by
      apply BitVec.eq_of_toNat_eq
      rw [decay_toNat, u8_toNat, u8_toNat]
      omega
    rw [session_replicate_succ, ih, hostOp, tick_eq]
    simp only [decayed]

theorem u8_sub_toNat (b : Byte) (n : Nat) : (u8 (b.toNat - n)).toNat = b.toNat - n := by
  rw [u8_toNat]
  omega

/-! ## The flag-writing instructions with X = Y and with X = F (R109) -/

/-- What a flagged write leaves in VF, whichever register the result goes to. -/
theorem vf_of_writesVFlag {i : Instr} {s : State} {x : Nibble} {b flag : Byte} (writes : WritesVFlag i s x b flag) :
    ∃ t, exec i s = .next t ∧ t.getV 0xF = flag := by
  obtain ⟨t, completes, -, vf, -⟩ := writes
  exact ⟨t, completes, vf⟩

/-- What a flagged write leaves in V[X] and in VF when they are different registers. -/
theorem both_of_writesVFlag {i : Instr} {s : State} {x : Nibble} {b flag : Byte} (writes : WritesVFlag i s x b flag)
    (notFlag : x ≠ 0xF) : ∃ t, exec i s = .next t ∧ t.getV x = b ∧ t.getV 0xF = flag := by
  obtain ⟨t, completes, written, vf, -⟩ := writes
  exact ⟨t, completes, written notFlag, vf⟩

theorem noBorrow_flag_eq (m n : Nat) : (if m < n then (0 : Byte) else 1) = if n ≤ m then 1 else 0 := by
  simp only [← not_lt, ite_not]

theorem noBorrow_flag_self (n : Nat) : (if n < n then (0 : Byte) else 1) = 1 :=
  if_neg (Nat.lt_irrefl n)

/-! ## CXNN (R108) -/

theorem byte_and_and_not (r m : Byte) : r &&& m &&& ~~~m = 0 := by
  rw [BitVec.and_assoc, BitVec.and_not_self]
  exact BitVec.and_zero

theorem rndWith_spec (r : Byte) (x : Nibble) (nn : Byte) (s : State) :
    ∃ t, rndWith r x nn s = .next t ∧ t.getV x = r &&& nn ∧ SameVBut (· = x) s t ∧ SameOutsideV s t ∧
      t.draws = s.draws + 1 ∧ t.pc.toNat = (s.pc.toNat + 2) % 65536 := by
  refine ⟨_, finish_eq _ _, ?value, ?others, sameOutsideV_update s _ _ _, rfl, u16_toNat _⟩
  case value => rw [State.getV_setPc, State.getV_setV_self]
  case others =>
    intro r other
    rw [State.getV_setPc, State.getV_setV_ne _ _ other, State.getV_nextDraw]

/-! ## Drawing twice (R140) -/

section DrawTwice

variable {x y n : Nibble} {s s' : State}

/-- The sprite bits are a matter of memory, I and the start position alone. -/
theorem spriteBit_congr (mem : s'.mem = s.mem) (i : s'.i = s.i)
    (column : (s'.getV x).toNat % 64 = (s.getV x).toNat % 64) (row : (s'.getV y).toNat % 32 = (s.getV y).toNat % 32)
    (cx : Fin 64) (cy : Fin 32) : SpriteBit x y n s' cx cy ↔ SpriteBit x y n s cx cy := by
  simp only [SpriteBit, mem, i, column, row]

variable (bits : ∀ cx cy, SpriteBit x y n s' cx cy ↔ SpriteBit x y n s cx cy)
  (display : s'.display = (drawSprite x y n s).1)
include bits display

theorem drawSprite_twice : (drawSprite x y n s').1 = s.display := by
  refine Display.ext_cell fun cx cy => ?_
  by_cases bit : SpriteBit x y n s cx cy
  · rw [drawSprite_cell_of_spriteBit ((bits cx cy).2 bit), display, drawSprite_cell_of_spriteBit bit, Bool.not_not]
  · rw [drawSprite_cell_of_not_spriteBit (mt (bits cx cy).1 bit), display, drawSprite_cell_of_not_spriteBit bit]

theorem flagByte_hit_twice_of_off (off : ∃ cx cy, SpriteBit x y n s cx cy ∧ s.display.cell cx cy = false) :
    flagByte (drawSprite x y n s').2 = 1 := by
  obtain ⟨cx, cy, bit, dark⟩ := off
  refine flagByte_hit_of_on ⟨cx, cy, (bits cx cy).2 bit, ?_⟩
  rw [display, drawSprite_cell_of_spriteBit bit, dark, Bool.not_false]

theorem flagByte_hit_twice_of_on (on : ∀ cx cy, SpriteBit x y n s cx cy → s.display.cell cx cy = true) :
    flagByte (drawSprite x y n s').2 = 0 := by
  refine flagByte_hit_of_off fun cx cy bit' => ?_
  have bit := (bits cx cy).1 bit'
  rw [display, drawSprite_cell_of_spriteBit bit, on cx cy bit, Bool.not_true]

end DrawTwice

/-! ## Who writes a general register (R18, R19) -/

theorem exec_leaves_getV {i : Instr} {r : Nibble} (s : State) (outside : ¬ MayWriteV i r) :
    Answers (fun t => t.getV r = s.getV r) (exec i s) := by
  cases i with
  | ldImm | addImm | ldReg | or | and | xor | ldVxDt => exact answers_next (s.getV_setV_ne _ outside)
  | rnd => exact answers_next (s.nextDraw.getV_setV_ne _ outside)
  | addReg | sub | shr | subn | shl =>
    obtain ⟨notX, notFlag⟩ := not_or.1 outside
    exact answers_next (by rw [State.getV_setPc, State.getV_setVFlag, if_neg notFlag, if_neg notX])
  | drw => exact answers_orRaise (fun _ => rfl) fun _ _ => answers_next ((s.setDisplay _).getV_setV_ne _ outside)
  | loadRegs x =>
    refine answers_orRaise (fun _ => rfl) fun bs read => answers_next ?_
    rw [memRead_eq] at read
    split at read
    · cases read
    · cases read
      rw [State.getV_setPc, State.getV_setRegs, Memory.getD_readBytes, if_neg (mt Nat.le_of_lt_succ outside)]
  | call nnn => exact answers_exec_call (fun _ => rfl) fun _ => rfl
  | ret => exact answers_exec_ret (fun _ => rfl) fun _ => rfl
  | skp | sknp | ldB | storeRegs => exact answers_orRaise (fun _ => rfl) fun _ _ => answers_next rfl
  | _ => exact answers_next rfl

/-! ## Who writes memory (R37) -/

theorem storeAtI_leaves_read {bs : List Byte} {s : State} {a : Nat}
    (outside : a < s.i.toNat ∨ s.i.toNat + bs.length ≤ a) :
    Answers (fun t => t.mem.read a = s.mem.read a) (storeAtI bs s) := by
  refine answers_orRaise (fun _ => rfl) fun m stored => answers_next ?_
  rw [memWrite_eq] at stored
  split at stored
  · cases stored
  · cases stored
    exact Memory.read_writeBytes_outside _ _ _ _ outside

theorem exec_leaves_read {i : Instr} {s : State} {a : Nat}
    (outside : a < s.i.toNat ∨ s.i.toNat + storedAtI i ≤ a) :
    Answers (fun t => t.mem.read a = s.mem.read a) (exec i s) := by
  cases i with
  | ldB x => exact storeAtI_leaves_read outside
  | storeRegs x => exact storeAtI_leaves_read (by rwa [State.length_regsUpTo])
  | call nnn => exact answers_exec_call (fun _ => rfl) fun _ => rfl
  | ret => exact answers_exec_ret (fun _ => rfl) fun _ => rfl
  | skp | sknp | drw => exact answers_orRaise (fun _ => rfl) fun _ _ => answers_next rfl
  | loadRegs =>
    exact answers_orRaise (fun _ => rfl) fun _ _ => answers_next (by rw [State.setPc_mem, State.setRegs_mem])
  | _ => exact answers_next rfl

/-! ## Who writes the stack, the timers and the counter of draws (R22, R24, R26) -/

/-- From `s` to `t`, an instruction has left each of these parts or is one that writes it. -/
structure ControlWrites (i : Instr) (s t : State) : Prop where
  stack : SameStack s t ∨ i = .ret ∨ ∃ nnn, i = .call nnn
  dt : t.dt = s.dt ∨ ∃ x, i = .ldDtVx x
  st : t.st = s.st ∨ ∃ x, i = .ldStVx x
  draws : t.draws = s.draws ∨ ∃ x nn, i = .rnd x nn
  keys : t.keys = s.keys

theorem controlWrites_of_same {i : Instr} {s t : State} (stack : t.stack = s.stack) (sp : t.sp = s.sp)
    (dt : t.dt = s.dt) (st : t.st = s.st) (draws : t.draws = s.draws) (keys : t.keys = s.keys) :
    ControlWrites i s t :=
  ⟨.inl ⟨sp, fun k => by rw [stack]⟩, .inl dt, .inl st, .inl draws, keys⟩

theorem controlWrites_setRun {i : Instr} {s : State} (q : RunState) : ControlWrites i s (s.setRun q) :=
  controlWrites_of_same rfl rfl rfl rfl rfl rfl

theorem controlWrites_finish {i : Instr} {s t : State} {n : NextPc} (writes : ControlWrites i s t) :
    Answers (ControlWrites i s) (finish n t) := by
  obtain ⟨stack, dt, st, draws, keys⟩ := writes
  exact answers_next ⟨stack, dt, st, draws, keys⟩

theorem exec_controlWrites (i : Instr) (s : State) : Answers (ControlWrites i s) (exec i s) := by
  have halts (e : Fault) := controlWrites_setRun (i := i) (s := s) (.halted e)
  cases i with
  | ret => exact answers_exec_ret halts fun _ => ⟨.inr (.inl rfl), .inl rfl, .inl rfl, .inl rfl, rfl⟩
  | call nnn => exact answers_exec_call halts fun _ => ⟨.inr (.inr ⟨nnn, rfl⟩), .inl rfl, .inl rfl, .inl rfl, rfl⟩
  | ldDtVx x => exact answers_next ⟨.inl ⟨rfl, fun _ => rfl⟩, .inr ⟨x, rfl⟩, .inl rfl, .inl rfl, rfl⟩
  | ldStVx x => exact answers_next ⟨.inl ⟨rfl, fun _ => rfl⟩, .inl rfl, .inr ⟨x, rfl⟩, .inl rfl, rfl⟩
  | rnd x nn => exact answers_next ⟨.inl ⟨rfl, fun _ => rfl⟩, .inl rfl, .inl rfl, .inr ⟨x, nn, rfl⟩, rfl⟩
  | skp | sknp | drw | ldB | storeRegs =>
    exact answers_orRaise halts fun _ _ => controlWrites_finish (controlWrites_of_same rfl rfl rfl rfl rfl rfl)
  | loadRegs x =>
    exact answers_orRaise halts fun bs _ => controlWrites_finish (controlWrites_of_same (s.setRegs_stack bs)
      (s.setRegs_sp bs) (s.setRegs_dt bs) (s.setRegs_st bs) (s.setRegs_draws bs) (s.setRegs_keys bs))
  | _ => exact controlWrites_finish (controlWrites_of_same rfl rfl rfl rfl rfl rfl)

theorem step_keys {s t : State} (stepped : step s = .next t) : t.keys = s.keys := by
  by_cases running : s.run = .running
  · rw [step_of_running running] at stepped
    exact answers_orRaise (P := fun t => t.keys = s.keys) (fun _ => rfl)
      (fun i _ t executed => (exec_controlWrites i s t executed).keys) t stepped
  · rcases step_of_not_running running stepped with rfl | ⟨x, k, rfl⟩ <;> rfl

end Sys2Proof.Machine

namespace Sys2Proof.Proofs

open Sys2Proof.Machine Sys2Proof.Safety Sys2Proof.Claims

/-- Settles O23: each tick takes one from both timers, and truncated subtraction stays at 0. -/
theorem ticksSaturateAtZero : Obligations.TicksSaturateAtZero := by
  intro n s
  rw [session_ticks]
  exact ⟨u8_sub_toNat s.dt n, u8_sub_toNat s.st n, rfl⟩

/-- Settles O41: the flagged writes of O38 to O40, their results and flags simplified for equal operands. -/
theorem sameRegisterAndFlagRegisterCases : Obligations.SameRegisterAndFlagRegisterCases := by
  intro x y s a b vf both
  obtain ⟨-, add⟩ := addRegisterSetsCarry x y s
  obtain ⟨-, -, sub, subn⟩ := subtractionsSetNoBorrow x y s
  obtain ⟨-, -, shr, shl⟩ := shiftsSetTheBitOut x y s
  refine ⟨?same, ?flag, ?sameFlag⟩
  case same =>
    rintro rfl notFlag
    rw [← two_mul, ← Nat.two_mul] at add
    rw [BitVec.sub_self, noBorrow_flag_self] at sub subn
    exact ⟨both_of_writesVFlag add notFlag, both_of_writesVFlag sub notFlag, both_of_writesVFlag shr notFlag,
      both_of_writesVFlag subn notFlag, both_of_writesVFlag shl notFlag⟩
  case flag =>
    intro _ _
    rw [noBorrow_flag_eq] at sub subn
    exact ⟨vf_of_writesVFlag add, vf_of_writesVFlag sub, vf_of_writesVFlag shr, vf_of_writesVFlag subn,
      vf_of_writesVFlag shl⟩
  case sameFlag =>
    rintro rfl rfl
    rw [← Nat.two_mul] at add
    rw [noBorrow_flag_self] at sub subn
    exact ⟨vf_of_writesVFlag add, vf_of_writesVFlag sub, vf_of_writesVFlag shr, vf_of_writesVFlag subn,
      vf_of_writesVFlag shl⟩

/-- Settles O42: the byte drawn is one byte among all, and each of them is written under the mask. -/
theorem randomWritesAnyMaskedByte : Obligations.RandomWritesAnyMaskedByte := by
  intro x nn s
  refine ⟨decode_rnd x nn, ⟨s.draw, rfl⟩, ?masked, fun r => rndWith_spec r x nn s⟩
  case masked =>
    obtain ⟨t, completes, value, -⟩ := rndWith_spec s.draw x nn s
    exact ⟨t, completes, by rw [value, byte_and_and_not]⟩

/-- Settles O47: the two bytes that FX55 leaves at PC + 2 and PC + 3 are the word that the next step fetches. -/
theorem storedWordIsFetchedNext : Obligations.StoredWordIsFetchedNext := by
  intro x p q s t i wf running inside next upToX atNext decoded executed
  obtain ⟨-, -, stores⟩ := storeRegistersCopiesToMemory x s wf
  obtain ⟨t', completes, stored, -, frame⟩ := stores inside
  rw [completes] at executed
  cases executed
  have pc : t.pc.toNat = s.i.toNat + p.toNat := by
    rw [frame, atNext]
    show (s.pc + 2).toNat = s.pc.toNat + 2
    bv_omega
  have word : t.mem.wordAt t.pc.toNat = s.getV p ++ s.getV q := by
    rw [Memory.wordAt, pc, Nat.add_assoc, next, stored p (by omega), stored q upToX, wordOfBytes]
  exact step_of_decode (frame ▸ running) (by omega) (by rw [word, decoded])

/-- Settles O50: the second draw flips back the cells that the first one flipped, and finds on those that were off. -/
theorem drawTwiceRestoresDisplay : Obligations.DrawTwiceRestoresDisplay := by
  intro x y n s t s' u readable drawn display mem i column row drawnAgain
  have readable' : SpriteReadable n s' := by rwa [SpriteReadable, i]
  rw [exec_drw_of_readable readable] at drawn
  rw [exec_drw_of_readable readable'] at drawnAgain
  cases drawn
  cases drawnAgain
  have bits := spriteBit_congr (n := n) mem i column row
  refine ⟨drawSprite_twice bits display, fun off => ?_, fun on => ?_⟩
  · rw [State.getV_setPc, State.getV_setV_self, flagByte_hit_twice_of_off bits display off]
  · rw [State.getV_setPc, State.getV_setV_self, flagByte_hit_twice_of_on bits display on]

/-- Settles O53: by the cases of the instruction, of the step outside Running and of the host operation. -/
theorem generalRegistersChangeOnlyByTheirWriters : Obligations.GeneralRegistersChangeOnlyByTheirWriters := by
  refine ⟨fun i s t executed r outside => exec_leaves_getV s outside t executed, ?waits, ?halted, ?hostOps⟩
  case waits =>
    intro s t x blocked stepped r other
    rw [step_of_blocked blocked] at stepped
    rcases stepBlocked_next stepped with ⟨k, -, rfl⟩ | ⟨-, rfl⟩
    · rw [getV_resolveKey, if_neg other]
    · rfl
  case halted =>
    intro s t f halted stepped
    rw [step_of_halted halted] at stepped
    cases stepped
    exact fun _ _ => rfl
  case hostOps =>
    intro op s notStep notRestart r _
    rcases hostOp_of_not_step_of_not_restarts s notStep notRestart with after | after | ⟨k, pressed, after⟩ <;>
      rw [after] <;> rfl

/-- Settles O54: by the cases of the instruction, of the host operation and of the step outside Running; only the two
stores reach memory, and only at their bytes. -/
theorem memoryChangesOnlyWhereStored : Obligations.MemoryChangesOnlyWhereStored := by
  refine ⟨fun i s t a executed outside => exec_leaves_read outside t executed, ?hostOps, ?notRunning⟩
  case hostOps =>
    intro op s notStep notRestart a
    rcases hostOp_of_not_step_of_not_restarts s notStep notRestart with after | after | ⟨k, pressed, after⟩ <;>
      rw [after] <;> rfl
  case notRunning =>
    intro s t notRunning stepped a
    rcases step_of_not_running notRunning stepped with rfl | ⟨x, k, rfl⟩ <;> rfl

/-- Settles O57: each part is left or the instruction is its writer; no step reaches the keys, and one outside Running
reaches none of the parts. -/
theorem stackTimersAndKeysChangeOnlyByTheirWriters : Obligations.StackTimersAndKeysChangeOnlyByTheirWriters := by
  refine ⟨?instructions, fun s t stepped k => by rw [step_keys stepped], ?notRunning⟩
  case instructions =>
    intro i s t executed
    obtain ⟨stack, dt, st, draws, -⟩ := exec_controlWrites i s t executed
    exact ⟨stack.resolve_left, dt.resolve_left, st.resolve_left, draws.resolve_left⟩
  case notRunning =>
    intro s t notRunning stepped
    rcases step_of_not_running notRunning stepped with rfl | ⟨x, k, rfl⟩ <;>
      exact ⟨⟨rfl, fun _ => rfl⟩, rfl, rfl⟩

end Sys2Proof.Proofs
end

section
/-! The loop that waits for DT (spec/70_reset_and_hazards.md R191): its three instructions step by step, what the
host's other operations leave of it, ticks along a schedule, and the statement that says when it ends. -/

namespace Sys2Proof.Machine

open Sys2Proof.Claims

/-! ## Where the machine is in the loop -/

/-- The loop FX07, 3X00, 1NNN stands at `a`, and the machine runs `offset` bytes after its start. -/
structure LoopAt (x : Nibble) (a : Addr12) (offset : Nat) (s : State) : Prop where
  fits : a.toNat + 4 ≤ 0xFFE
  running : s.run = .running
  head : s.mem.wordAt a.toNat = encode (.ldVxDt x)
  test : s.mem.wordAt (a.toNat + 2) = encode (.seImm x 0)
  back : s.mem.wordAt (a.toNat + 4) = encode (.jp a)
  pc : s.pc.toNat = a.toNat + offset

/-- A place in the loop with DT at 0. -/
def DrainedAt (x : Nibble) (a : Addr12) (offset : Nat) (s : State) : Prop := LoopAt x a offset s ∧ s.dt = 0

section Loop

variable {x : Nibble} {a : Addr12} {offset : Nat} {s : State}

/-- The loop looks at memory and RUN, so a change of anything else moves the machine in it at most. -/
theorem LoopAt.move {offset' : Nat} {t : State} (loop : LoopAt x a offset s) (run : t.run = s.run) (mem : t.mem = s.mem)
    (pc : t.pc.toNat = a.toNat + offset') : LoopAt x a offset' t := by
  obtain ⟨fits, running, head, test, back, -⟩ := loop
  exact ⟨fits, run.trans running, mem ▸ head, mem ▸ test, mem ▸ back, pc⟩

/-! ## The three instructions -/

/-- FX07 copies DT to V[X]. -/
theorem LoopAt.step_head (loop : LoopAt x a 0 s) :
    LoopAt x a 2 (hostOp .step s).1 ∧ (hostOp .step s).1.dt = s.dt ∧ (hostOp .step s).1.getV x = s.dt := by
  have fits := loop.fits
  have pc := loop.pc
  have stepped : step s = .next ((s.setV x s.dt).setPc (s.pc + 2)) :=
    (step_of_encode (i := .ldVxDt x) loop.running (by omega) (by rw [pc]; exact loop.head)).trans (finish_default _)
  rw [hostOp_step_of_next stepped]
  exact ⟨loop.move rfl rfl (by rw [State.setPc_pc]; bv_omega), rfl, by rw [State.getV_setPc, State.getV_setV_self]⟩

/-- 3X00 is a skip on V[X] = 0. -/
theorem LoopAt.step_test (loop : LoopAt x a 2 s) : step s = skipIf (s.getV x == 0) s := by
  have fits := loop.fits
  exact step_of_encode (i := .seImm x 0) loop.running (by rw [loop.pc]; omega) (by rw [loop.pc]; exact loop.test)

theorem LoopAt.step_test_of_zero (loop : LoopAt x a 2 s) (zero : s.getV x = 0) :
    LoopAt x a 6 (hostOp .step s).1 ∧ (hostOp .step s).1.dt = s.dt := by
  have fits := loop.fits
  have pc := loop.pc
  rw [hostOp_step_of_next (loop.step_test.trans (skipIf_eq _ s)), zero]
  exact ⟨loop.move rfl rfl (by rw [State.setPc_pc, u16_toNat, beq_self_eq_true, if_pos rfl]; omega), rfl⟩

theorem LoopAt.step_test_of_ne_zero (loop : LoopAt x a 2 s) (nonzero : s.getV x ≠ 0) :
    LoopAt x a 4 (hostOp .step s).1 ∧ (hostOp .step s).1.dt = s.dt := by
  have fits := loop.fits
  have pc := loop.pc
  rw [hostOp_step_of_next (loop.step_test.trans (skipIf_eq _ s)), beq_false_of_ne nonzero]
  exact ⟨loop.move rfl rfl (by rw [State.setPc_pc, u16_toNat, if_neg Bool.false_ne_true]; omega), rfl⟩

/-- 1NNN goes back to the start. -/
theorem LoopAt.step_back (loop : LoopAt x a 4 s) :
    LoopAt x a 0 (hostOp .step s).1 ∧ (hostOp .step s).1.dt = s.dt := by
  have fits := loop.fits
  have stepped : step s = .next (s.setPc (zext16 a)) :=
    step_of_encode (i := .jp a) loop.running (by rw [loop.pc]; exact fits) (by rw [loop.pc]; exact loop.back)
  rw [hostOp_step_of_next stepped]
  exact ⟨loop.move rfl rfl (zext16_toNat a), rfl⟩

/-! ## The host's other operations -/

theorem keyEvent_dt (k : Int) (pressed : Bool) (s : State) : (s.keyEvent k pressed).1.dt = s.dt := by
  rcases keyEvent_fst k pressed s with same | ⟨j, set⟩
  · rw [same]
  · rw [set, State.setKey_dt]

section Other

variable {op : HostOp} (notStep : op ≠ .step) (stays : ¬ Restarts op)
include notStep stays

theorem LoopAt.hostOp_other (loop : LoopAt x a offset s) : LoopAt x a offset (hostOp op s).1 := by
  rcases hostOp_of_not_step_of_not_restarts s notStep stays with after | after | ⟨k, pressed, after⟩ <;> rw [after]
  · exact loop
  · exact loop.move rfl rfl loop.pc
  · exact loop.move rfl rfl loop.pc

theorem getV_hostOp_other (r : Nibble) : (hostOp op s).1.getV r = s.getV r := by
  rcases hostOp_of_not_step_of_not_restarts s notStep stays with after | after | ⟨k, pressed, after⟩ <;>
    rw [after] <;> rfl

theorem dt_hostOp_other : (hostOp op s).1.dt.toNat = s.dt.toNat - if op = .tick then 1 else 0 := by
  cases op with
  | tick => exact decay_toNat s.dt
  | step => exact absurd rfl notStep
  | reset => exact absurd (.inl rfl) stays
  | loadRom b => rw [hostOp, loadRom_fst_of_too_long fun fits => stays (.inr ⟨b, rfl, fits⟩)]; rfl
  | keyDown k | keyUp k => exact congrArg BitVec.toNat (keyEvent_dt k _ s)
  | readDisplay | readMemory | readPc | readRegisters | disassemble start stop => rfl

theorem DrainedAt.hostOp_other (drained : DrainedAt x a offset s) : DrainedAt x a offset (hostOp op s).1 := by
  obtain ⟨loop, zero⟩ := drained
  refine ⟨loop.hostOp_other notStep stays, BitVec.eq_of_toNat_eq ?_⟩
  rw [dt_hostOp_other notStep stays, zero]
  exact Nat.zero_sub _

end Other

/-! ## While DT is not 0 -/

/-- The machine is in the loop, and after the FX07 V[X] holds no less than DT does by now. -/
def InDelayLoop (x : Nibble) (a : Addr12) (s : State) : Prop :=
  LoopAt x a 0 s ∨ (LoopAt x a 2 s ∧ s.dt.toNat ≤ (s.getV x).toNat) ∨ LoopAt x a 4 s

theorem InDelayLoop.running (loop : InDelayLoop x a s) : s.run = .running := by
  rcases loop with loop | ⟨loop, -⟩ | loop <;> exact loop.running

theorem InDelayLoop.pc_mem (loop : InDelayLoop x a s) : s.pc.toNat ∈ [a.toNat, a.toNat + 2, a.toNat + 4] := by
  rcases loop with loop | ⟨loop, -⟩ | loop <;> simp [loop.pc]

/-- A step keeps DT, and leaves the loop only where DT is 0. -/
theorem InDelayLoop.step (loop : InDelayLoop x a s) :
    (hostOp .step s).1.dt = s.dt ∧
      (InDelayLoop x a (hostOp .step s).1 ∨ (s.dt.toNat = 0 ∧ LoopAt x a 6 (hostOp .step s).1)) := by
  rcases loop with loop | ⟨loop, enough⟩ | loop
  · obtain ⟨next, dt, copied⟩ := loop.step_head
    exact ⟨dt, .inl (.inr (.inl ⟨next, by rw [dt, copied]⟩))⟩
  · by_cases zero : s.getV x = 0
    · obtain ⟨next, dt⟩ := loop.step_test_of_zero zero
      rw [zero] at enough
      exact ⟨dt, .inr ⟨Nat.le_zero.1 enough, next⟩⟩
    · obtain ⟨next, dt⟩ := loop.step_test_of_ne_zero zero
      exact ⟨dt, .inl (.inr (.inr next))⟩
  · obtain ⟨next, dt⟩ := loop.step_back
    exact ⟨dt, .inl (.inl next)⟩

theorem InDelayLoop.hostOp_other {op : HostOp} (notStep : op ≠ .step) (stays : ¬ Restarts op)
    (loop : InDelayLoop x a s) : InDelayLoop x a (hostOp op s).1 := by
  rcases loop with loop | ⟨loop, enough⟩ | loop
  · exact .inl (loop.hostOp_other notStep stays)
  · refine .inr (.inl ⟨loop.hostOp_other notStep stays, ?_⟩)
    rw [getV_hostOp_other notStep stays, dt_hostOp_other notStep stays]
    omega
  · exact .inr (.inr (loop.hostOp_other notStep stays))

end Loop

/-! ## Ticks along a schedule -/

/-- How many of the first `n` operations are ticks. -/
def ticksBefore (ops : Schedule) (n : Nat) : Nat := ((List.range n).map ops).count .tick

theorem ticksBefore_succ (ops : Schedule) (n : Nat) :
    ticksBefore ops (n + 1) = ticksBefore ops n + if ops n = .tick then 1 else 0 := by
  simp [ticksBefore, List.range_succ, List.count_singleton]

theorem ticksBefore_mono (ops : Schedule) : Monotone (ticksBefore ops) :=
  monotone_nat_of_le_succ fun n => by rw [ticksBefore_succ]; exact Nat.le_add_right _ _

/-- If ticks keep coming, any number of them comes. -/
theorem exists_le_ticksBefore {ops : Schedule} (ticks : TicksKeepComing ops) (k : Nat) : ∃ n, k ≤ ticksBefore ops n := by
  induction k with
  | zero => exact ⟨0, Nat.zero_le _⟩
  | succ k ih =>
    obtain ⟨n, many⟩ := ih
    obtain ⟨m, later, tick⟩ := ticks n
    refine ⟨m + 1, ?_⟩
    rw [ticksBefore_succ, if_pos tick]
    exact Nat.succ_le_succ (many.trans (ticksBefore_mono ops later))

section Scheduled

variable {ops : Schedule} {s : State} {x : Nibble} {a : Addr12}

/-- What the next step brings about comes to pass if every other operation keeps its condition. -/
theorem exists_scheduled_of_step {P Q : State → Prop} (steps : KeepsComing .step ops) (stays : ∀ n, ¬ Restarts (ops n))
    (keeps : ∀ {op s}, op ≠ .step → ¬ Restarts op → P s → P (hostOp op s).1)
    (moves : ∀ {s}, P s → Q (hostOp .step s).1) {n : Nat} (holds : P (scheduled ops n s)) :
    ∃ m, Q (scheduled ops m s) := by
  obtain ⟨m, later, atStep⟩ := steps n
  obtain ⟨d, rfl⟩ := Nat.exists_eq_add_of_le later
  clear later
  induction d generalizing n with
  | zero => exact ⟨n + 1, by rw [scheduled_succ, show ops n = .step from atStep]; exact moves holds⟩
  | succ d ih =>
    by_cases now : ops n = .step
    · exact ⟨n + 1, by rw [scheduled_succ, now]; exact moves holds⟩
    · refine ih (n := n + 1) ?_ (by rwa [Nat.add_right_comm])
      rw [scheduled_succ]
      exact keeps now (stays n) holds

variable (stays : ∀ n, ¬ Restarts (ops n))
include stays

/-- The machine is in the loop with DT down by the ticks so far, or it has left after enough of them. -/
theorem inDelayLoop_or_left (loop : LoopAt x a 0 s) (n : Nat) :
    (InDelayLoop x a (scheduled ops n s) ∧ (scheduled ops n s).dt.toNat = s.dt.toNat - ticksBefore ops n) ∨
      ∃ m ≤ n, s.dt.toNat ≤ ticksBefore ops m ∧ LoopAt x a 6 (scheduled ops m s) := by
  induction n with
  | zero => exact .inl ⟨.inl loop, rfl⟩
  | succ n ih =>
    rcases ih with ⟨inLoop, dt⟩ | ⟨m, earlier, enough, left⟩
    · have ticks := ticksBefore_succ ops n
      rw [scheduled_succ]
      by_cases isStep : ops n = .step
      · rw [isStep] at ticks ⊢
        obtain ⟨dt', inLoop' | ⟨zero, left⟩⟩ := inLoop.step
        · exact .inl ⟨inLoop', by rw [dt', dt, ticks]; rfl⟩
        · refine .inr ⟨n + 1, Nat.le_refl _, ?_, ?_⟩
          · omega
          · rwa [scheduled_succ, isStep]
      · refine .inl ⟨inLoop.hostOp_other isStep (stays n), ?_⟩
        rw [dt_hostOp_other isStep (stays n), dt, ticks]
        omega
    · exact .inr ⟨m, by omega, enough, left⟩

variable (steps : KeepsComing .step ops)
include steps

/-! Once DT is 0, each place in the loop leads to the next, and to the exit once V[X] is 0. -/

theorem exists_left_of_test_zero {n : Nat}
    (here : LoopAt x a 2 (scheduled ops n s) ∧ (scheduled ops n s).getV x = 0) :
    ∃ m, LoopAt x a 6 (scheduled ops m s) :=
  exists_scheduled_of_step (P := fun s => LoopAt x a 2 s ∧ s.getV x = 0) steps stays
    (fun notStep stay ⟨loop, zero⟩ =>
      ⟨loop.hostOp_other notStep stay, (getV_hostOp_other notStep stay x).trans zero⟩)
    (fun ⟨loop, zero⟩ => (loop.step_test_of_zero zero).1) here

theorem exists_left_of_head {n : Nat} (here : DrainedAt x a 0 (scheduled ops n s)) :
    ∃ m, LoopAt x a 6 (scheduled ops m s) := by
  obtain ⟨m, next⟩ := exists_scheduled_of_step (P := DrainedAt x a 0) (Q := fun s => LoopAt x a 2 s ∧ s.getV x = 0)
    steps stays DrainedAt.hostOp_other
    (fun ⟨loop, zero⟩ => ⟨loop.step_head.1, loop.step_head.2.2.trans zero⟩) here
  exact exists_left_of_test_zero stays steps next

theorem exists_left_of_back {n : Nat} (here : DrainedAt x a 4 (scheduled ops n s)) :
    ∃ m, LoopAt x a 6 (scheduled ops m s) := by
  obtain ⟨m, next⟩ := exists_scheduled_of_step (P := DrainedAt x a 4) (Q := DrainedAt x a 0)
    steps stays DrainedAt.hostOp_other
    (fun ⟨loop, zero⟩ => ⟨loop.step_back.1, loop.step_back.2.trans zero⟩) here
  exact exists_left_of_head stays steps next

theorem exists_left_of_test_ne_zero {n : Nat}
    (here : DrainedAt x a 2 (scheduled ops n s) ∧ (scheduled ops n s).getV x ≠ 0) :
    ∃ m, LoopAt x a 6 (scheduled ops m s) := by
  obtain ⟨m, next⟩ := exists_scheduled_of_step (P := fun s => DrainedAt x a 2 s ∧ s.getV x ≠ 0)
    (Q := DrainedAt x a 4) steps stays
    (fun notStep stay ⟨drained, nonzero⟩ =>
      ⟨drained.hostOp_other notStep stay, by rwa [getV_hostOp_other notStep stay]⟩)
    (fun ⟨⟨loop, zero⟩, nonzero⟩ =>
      ⟨(loop.step_test_of_ne_zero nonzero).1, (loop.step_test_of_ne_zero nonzero).2.trans zero⟩) here
  exact exists_left_of_back stays steps next

theorem exists_left_of_dt_eq_zero {n : Nat} (inLoop : InDelayLoop x a (scheduled ops n s))
    (zero : (scheduled ops n s).dt = 0) : ∃ m, LoopAt x a 6 (scheduled ops m s) := by
  rcases inLoop with loop | ⟨loop, -⟩ | loop
  · exact exists_left_of_head stays steps ⟨loop, zero⟩
  · by_cases value : (scheduled ops n s).getV x = 0
    · exact exists_left_of_test_zero stays steps ⟨loop, value⟩
    · exact exists_left_of_test_ne_zero stays steps ⟨⟨loop, zero⟩, value⟩
  · exact exists_left_of_back stays steps ⟨loop, zero⟩

end Scheduled

end Sys2Proof.Machine

namespace Sys2Proof.Proofs

open Sys2Proof.Machine

/-- Settles O60: along the schedule the machine is in the loop, DT down by the ticks so far, or has left after enough
of them; and once DT is 0, every place in the loop leads to the exit. -/
theorem delayLoopEndsWhenTicksKeepComing : Obligations.DelayLoopEndsWhenTicksKeepComing := by
  intro ops s x a stays running pc fits head test back
  have along := inDelayLoop_or_left stays (⟨fits, running, head, test, back, pc⟩ : LoopAt x a 0 s)
  refine ⟨?before, ?ends⟩
  case before =>
    intro n few
    rcases along n with ⟨inLoop, -⟩ | ⟨m, earlier, enough, -⟩
    · exact ⟨inLoop.running, inLoop.pc_mem⟩
    · exact absurd (enough.trans (ticksBefore_mono ops earlier)) (Nat.not_le.2 few)
  case ends =>
    intro ticks steps
    have left : ∃ m, LoopAt x a 6 (scheduled ops m s) := by
      obtain ⟨n, enough⟩ := exists_le_ticksBefore ticks s.dt.toNat
      rcases along n with ⟨inLoop, dt⟩ | ⟨m, -, -, left⟩
      · exact exists_left_of_dt_eq_zero stays steps inLoop
          (BitVec.eq_of_toNat_eq (dt.trans (Nat.sub_eq_zero_of_le enough)))
      · exact ⟨m, left⟩
    obtain ⟨m, left⟩ := left
    exact ⟨m, left.running, left.pc⟩

end Sys2Proof.Proofs
end
